-- ==== Sys2Proof/Word.lean ====
section
/-! DEFINITION. The word of the machine and the width of its immediate field (00_scope.md R5, R8). -/

namespace Sys2Proof

/-- A 16-bit word: every register, memory word, address and the program counter (R5, R8). -/
abbrev Word := BitVec 16

/-- The 8-bit immediate field of a Type I instruction, as it stands in the word (R67). -/
abbrev Imm8 := BitVec 8

end Sys2Proof
end

