-- ==== Sys2Proof/Config.lean ====
section
/-! DEFINITION. The parameters the source leaves open, each with the default the spec takes (00_scope.md R6;
92_eei_decisions.md, "Open parameters, gathered"), and the free values of the model: constants with no body. -/

namespace Sys2Proof

/-- `IMM_EXT`: how the 8-bit immediate becomes 16 bits (30_encoding.md R68, decision D1). -/
inductive ImmExt where
  | sext
  | zext
deriving DecidableEq, Repr

/-- `BRANCH_MODE`: what the target of BZ and BAL is counted from (45_type_i_branch.md R150, R154, decision D2). -/
inductive BranchMode where
  | pcRelative
  | basePlusImm
deriving DecidableEq, Repr

/-- `SR_FILL`: the bit SR shifts into position 15 (41_type_r1_unary.md R112, decision D4). -/
inductive SrFill where
  | zero
  | sign
deriving DecidableEq, Repr

/-- The two orders the bytes of a word could have in an image file (20_memory.md R47). -/
inductive ByteOrder where
  | lowFirst
  | highFirst
deriving DecidableEq, Repr

/-- The run parameters of R6 that are settings rather than data. `IMAGE` and `INPUT` are fields of `State`. -/
structure Config where
  immExt : ImmExt
  branchMode : BranchMode
  /-- `SLT_SIGNED` (40_type_r_alu.md R104, decision D3). -/
  sltSigned : Bool
  srFill : SrFill
  /-- `STRICT_UNUSED` (30_encoding.md R66, decision D7). -/
  strictUnused : Bool
  /-- `RESET_PC` (70_reset_and_hazards.md R181, decision D11). -/
  resetPc : Word
  /-- `IMAGE_BYTE_ORDER`: `none` is the spec's OPEN. No rule reads it (20_memory.md R47, decision D14). -/
  imageByteOrder : Option ByteOrder
deriving DecidableEq, Repr

/-- The defaults of R6. DESIGN CHOICE, the spec's own, unsafe for a claim that fixes one (logs 1 to 5, 7, 11). -/
def Config.default : Config where
  immExt := .sext
  branchMode := .pcRelative
  sltSigned := true
  srFill := .zero
  strictUnused := false
  resetPc := 0x0000#16
  imageByteOrder := none

/-- FREE VALUE (log 13). What the DMEM word at an address holds when neither the launch nor a store has given it a
value: unspecified, but one stable word for each address (10_state.md R34, decision D17). -/
opaque Config.powerOnWord : Word → Word

/-- FREE VALUE (log 9). What the input port presents to the `n`-th IN of a run when the state lists no answer for it:
any 16-bit value, under no law (10_state.md R30, decision D9). -/
opaque Config.unstatedInput : Nat → Word

end Sys2Proof
end

