-- ==== Sys2Proof/Machine/State.lean ====
section
/-! DEFINITION. The machine's state as plain data (10_state.md R33), the reasons a step can stop (60_exceptions.md R161,
R162), and the state right after reset (10_state.md R34, 70_reset_and_hazards.md R180). -/

namespace Sys2Proof.Machine

/-- The four general registers (10_state.md R20). -/
structure RegFile where
  x0 : Word
  x1 : Word
  x2 : Word
  x3 : Word
deriving DecidableEq, Repr

/-- One listed word of a memory: its word address, below 65536, and its value (20_memory.md R40, R41; log 16). -/
abbrev MemCell := Nat × Word

/-- A word-addressed memory: the words that the launch or a store has given a value. An unlisted address has no value
here; what that means for DMEM is said by `State.memRead`, for IMEM by `State.ifetch`. -/
abbrev Memory := List MemCell

/-- The complete state (10_state.md R33), with the run parameters beside it. -/
structure State where
  /-- `x[0]` to `x[3]` (R20, R21). -/
  regs : RegFile
  /-- The IMEM word address of the instruction that executes (R23, R24). -/
  pc : Word
  /-- `IMAGE`: the listed words of the instruction memory (R32; 20_memory.md R42). -/
  imem : Memory
  /-- The data memory (R32; 20_memory.md R40). -/
  dmem : Memory
  /-- The processor has stopped (R29). -/
  halted : Bool
  /-- The output trace, oldest first (R31). -/
  out : List Word
  /-- `INPUT`: the environment's next answers to IN, the next one first (R30, R33). -/
  input : List Word
  /-- The model's own: how many INs have executed; it indexes the free answers (log 9). -/
  inCount : Nat
  /-- The run parameters (00_scope.md R6; log 1). -/
  cfg : Config
deriving DecidableEq, Repr

/-- Why a machine has no next state. No constructor is a hardware event (60_exceptions.md R160). -/
inductive Fault where
  /-- Raised by the fetch of a step whose `pc` is outside the domain of `IMAGE`; it records that address (R42, R161,
  decision D18). Safe: the real machine goes on with a word the model does not know. -/
  | fetchFault (a : Word)
  /-- Raised by the decode of a step that fetched a word which is no instruction; it records that word (R71, R161,
  decisions D7, D8). Safe: the real machine does something the source does not give. -/
  | illegalOpcode (w : Word)
  /-- Raised by a step of a machine that HLT has stopped: no step exists (42_type_r0_hlt.md R121). It is the end of a
  run and no error. Safe: the source gives a stopped processor nothing to do. -/
  | halted
deriving DecidableEq, Repr

/-- Why the model gives no meaning. -/
inductive Refusal where
  /-- Raised by an arm of `exec` whose instruction has no meaning yet. Safe. No arm of this model raises it. -/
  | notModelled (mnemonic : String)
deriving DecidableEq, Repr

/-- What one step or one instruction answers. -/
abbrev Result := Host.Outcome State Fault Refusal

/-- The state a reset leaves when the environment has loaded `image`, initialised `data`, will answer `answers`, and the
registers, which the spec leaves unspecified, happen to hold `regs` (10_state.md R34; R180, R184). -/
def State.launch (cfg : Config) (image data : Memory) (answers : List Word) (regs : RegFile) : State where
  regs := regs
  pc := cfg.resetPc
  imem := image
  dmem := data
  halted := false
  out := []
  input := answers
  inCount := 0
  cfg := cfg

/-- The registers of `State.reset`. DESIGN CHOICE, unsafe (log 12): the spec leaves them
unspecified. -/
def RegFile.zero : RegFile where
  x0 := 0x0000#16
  x1 := 0x0000#16
  x2 := 0x0000#16
  x3 := 0x0000#16

/-- The machine right after reset, under the default parameters, with nothing loaded and nothing initialised. -/
def State.reset : State := State.launch Config.default [] [] [] RegFile.zero

end Sys2Proof.Machine
end

