-- ==== Sys2Proof/Machine/Flags.lean ====
section
/-! DEFINITION. The machine has no flags and no condition codes (10_state.md R27); its two conditions are computed from
register values: the comparison of SLT and the test of BZ. -/

namespace Sys2Proof.Machine

/-- `a < b` in SLT: of the two's-complement readings, or of the unsigned ones under `SLT_SIGNED = false` (R104, decision
D3; the readings are those of 00_scope.md R8). -/
def lessThan (cfg : Config) (a b : Word) : Bool :=
  match cfg.sltSigned with
  | true => decide (a.toInt < b.toInt)
  | false => decide (a.toNat < b.toNat)

/-- The test of BZ, on all 16 bits (R151). -/
def isZero (v : Word) : Bool := v == 0x0000#16

end Sys2Proof.Machine
end

