-- ==== Sys2Proof/Syntax.lean ====
section
/-! DEFINITION. The four registers, the fourteen instructions of spec/opcode_table.json, and the assembly lines of
30_encoding.md R74 to R77. Constructor arguments stand in the order of the assembly operands (R74, R75). -/

namespace Sys2Proof

/-- A general register `$0` to `$3` (10_state.md R20). -/
inductive Reg where
  | r0
  | r1
  | r2
  | r3
deriving DecidableEq, Repr

/-- One instruction, its fields already taken apart (00_scope.md R11, 30_encoding.md R70). -/
inductive Instr where
  /-- ADD `$rd, $rs1, $rs2` (R101). -/
  | add (rd rs1 rs2 : Reg)
  /-- AND `$rd, $rs1, $rs2` (R102). -/
  | and (rd rs1 rs2 : Reg)
  /-- SUB `$rd, $rs1, $rs2` (R103). -/
  | sub (rd rs1 rs2 : Reg)
  /-- SLT `$rd, $rs1, $rs2` (R104). -/
  | slt (rd rs1 rs2 : Reg)
  /-- NOT `$rd, $rs` (R111). -/
  | not (rd rs : Reg)
  /-- SR `$rd, $rs` (R112). -/
  | sr (rd rs : Reg)
  /-- HLT (R120). -/
  | hlt
  /-- LD `$ra, imm($rb)` (R131). -/
  | ld (ra : Reg) (imm : Imm8) (rb : Reg)
  /-- ST `$ra, imm($rb)` (R132). -/
  | st (ra : Reg) (imm : Imm8) (rb : Reg)
  /-- LDA `$ra, imm($rb)` (R133). -/
  | lda (ra : Reg) (imm : Imm8) (rb : Reg)
  /-- IN `$ra` (R141). -/
  | inp (ra : Reg)
  /-- OUT `$ra` (R142). -/
  | out (ra : Reg)
  /-- BZ `$ra, imm($rb)`; `rb` counts under `BRANCH_MODE = base_plus_imm` only (R151, R154). -/
  | bz (ra : Reg) (imm : Imm8) (rb : Reg)
  /-- BAL `$ra, imm($rb)`; `rb` counts under `BRANCH_MODE = base_plus_imm` only (R152, R154). -/
  | bal (ra : Reg) (imm : Imm8) (rb : Reg)
deriving DecidableEq, Repr

/-- The mnemonics of the assembly form `OP R1, R2, R3` (R74). -/
inductive OpR where
  | add
  | and
  | sub
  | slt
deriving DecidableEq, Repr

/-- The mnemonics of the assembly form `OP R1, R2` (R74). -/
inductive OpR1 where
  | not
  | sr
deriving DecidableEq, Repr

/-- The memory and address mnemonics of the assembly form `OP R1, Imm(R2)` (R74, R130). -/
inductive OpMem where
  | ld
  | st
  | lda
deriving DecidableEq, Repr

/-- The control-transfer mnemonics of the assembly form `OP R1, Imm(R2)` (R74, R155). -/
inductive OpBranch where
  | bz
  | bal
deriving DecidableEq, Repr

/-- One assembly line, its immediate still an integer and its label the address the label stands for (R74 to R77).
`BZ $a, k` and `BAL $a, k` are the lines with base `$0`. -/
inductive AsmLine where
  | typeR (op : OpR) (d s t : Reg)
  | typeR1 (op : OpR1) (d s : Reg)
  | hlt
  | mem (op : OpMem) (a : Reg) (k : Int) (b : Reg)
  | memLabel (op : OpMem) (a : Reg) (label : Word)
  | inp (a : Reg)
  | out (a : Reg)
  | branch (op : OpBranch) (a : Reg) (k : Int) (b : Reg)
  | branchLabel (op : OpBranch) (a : Reg) (label : Word)
deriving DecidableEq, Repr

end Sys2Proof
end

