-- ==== Sys2Proof/Machine/Ops.lean ====
section
/-! DEFINITION. The named operations over registers, pc, memories and ports: the pseudocode primitives of 00_scope.md R9.
There is no operation for taking or leaving an exception: the machine has neither (60_exceptions.md R160, R165, R166). -/

namespace Sys2Proof.Machine

/-! ### Registers and program counter -/

/-- The stored value of a register (R9: `x[i]`). -/
def RegFile.get (f : RegFile) : Reg → Word
  | .r0 => f.x0
  | .r1 => f.x1
  | .r2 => f.x2
  | .r3 => f.x3

/-- Write a register; `$0` keeps what is written to it like any other (R9, R21). -/
def RegFile.set (f : RegFile) (r : Reg) (v : Word) : RegFile :=
  match r with
  | .r0 => { f with x0 := v }
  | .r1 => { f with x1 := v }
  | .r2 => { f with x2 := v }
  | .r3 => { f with x3 := v }

/-- `x[r]`, the stored value, also for `$0` (R9, R21). -/
def State.readReg (s : State) (r : Reg) : Word := s.regs.get r

/-- `x[r] <- v` (R9). -/
def State.writeReg (s : State) (r : Reg) (v : Word) : State := { s with regs := s.regs.set r v }

/-- `pc <- a` (R9). -/
def State.setPc (s : State) (a : Word) : State := { s with pc := a }

/-- `pc <- pc + 1`, modulo `2^16` (R25, R26). -/
def State.advance (s : State) : State := s.setPc (s.pc + 1#16)

/-- `x[rd] <- v; pc <- pc + 1`: how every instruction that computes a register ends (R100, R110, R130, R140). -/
def State.finishWith (s : State) (rd : Reg) (v : Word) : State := (s.writeReg rd v).advance

/-! ### Memories -/

/-- The value listed for an address. -/
def Memory.lookup : Memory → Nat → Option Word
  | [], _ => none
  | (b, w) :: rest, a => if a = b then some w else Memory.lookup rest a

/-- List `v` for the address `a`, at its place in the rising order. -/
def Memory.store : Memory → Nat → Word → Memory
  | [], a, v => [(a, v)]
  | (b, w) :: rest, a, v =>
    if a < b then (a, v) :: (b, w) :: rest
    else if a = b then (a, v) :: rest
    else (b, w) :: Memory.store rest a v

/-- The listed addresses rise strictly, from `lo` on, and lie in the 16-bit address space. -/
def Memory.wfFrom (lo : Nat) : Memory → Bool
  | [] => true
  | (a, _) :: rest => decide (lo ≤ a) && decide (a < 65536) && Memory.wfFrom (a + 1) rest

/-- The canonical form of a memory: one strictly rising list of addresses below 65536 (20_memory.md R40). An unlisted
address has no value, which no listed word can equal. -/
def Memory.wf (m : Memory) : Bool := Memory.wfFrom 0 m

/-- `MemRead(a, 1)`: the word of DMEM at `a` (20_memory.md R46). A word that neither the launch nor a store has given a
value reads as the stable free value of its address (10_state.md R34, decision D17; log 13). -/
def State.memRead (s : State) (a : Word) : Word :=
  match Memory.lookup s.dmem a.toNat with
  | some v => v
  | none => Config.powerOnWord a

/-- `MemWrite(a, 1, v)`: set one word of DMEM (20_memory.md R46). -/
def State.memWrite (s : State) (a v : Word) : State := { s with dmem := Memory.store s.dmem a.toNat v }

/-- `IFetch(a)`: the word of `IMAGE` at `a`, or nothing outside its domain (20_memory.md R42). -/
def State.ifetch (s : State) (a : Word) : Option Word := Memory.lookup s.imem a.toNat

/-! ### Ports and halt -/

/-- `PortIn()`: the environment's answer to the next IN: the next listed answer, or a free value where none is listed, so
that an IN never blocks (10_state.md R30, R31; log 9). -/
def State.portIn (s : State) : Word :=
  match s.input with
  | v :: _ => v
  | [] => Config.unstatedInput s.inCount

/-- The answer to this IN is used up: the next IN gets an answer of its own (10_state.md R30). -/
def State.takeInput (s : State) : State := { s with input := s.input.tail, inCount := s.inCount + 1 }

/-- `PortOut(v)`: append to the output trace (10_state.md R31). -/
def State.portOut (s : State) (v : Word) : State := { s with out := s.out ++ [v] }

/-- `Halt()` (10_state.md R29). -/
def State.halt (s : State) : State := { s with halted := true }

end Sys2Proof.Machine
end

