-- ==== Sys2Proof/Machine/Operands.lean ====
section
/-! DEFINITION. The operand forms: base, immediate, effective address, branch target (20_memory.md R44, R45;
30_encoding.md R68; 45_type_i_branch.md R150, R154). -/

namespace Sys2Proof.Machine

/-- `BaseVal(rb)`: the constant 0 for the field value 00, whatever `$0` holds; else the stored register (R44). -/
def baseVal (rb : Reg) (s : State) : Word :=
  match rb with
  | .r0 => 0x0000#16
  | .r1 => s.readReg .r1
  | .r2 => s.readReg .r2
  | .r3 => s.readReg .r3

/-- `Imm16(imm8)` under `IMM_EXT` (R68, decision D1). -/
def imm16 (cfg : Config) (imm : Imm8) : Word :=
  match cfg.immExt with
  | .sext => imm.signExtend 16
  | .zext => imm.zeroExtend 16

/-- `EA = BaseVal(rb) + Imm16(imm8)` modulo `2^16` (R45, decision D5). -/
def effAddr (imm : Imm8) (rb : Reg) (s : State) : Word := baseVal rb s + imm16 s.cfg imm

/-- `BranchTarget` under `BRANCH_MODE`: counted from the branch itself (R150), or the same sum as an effective address
(R154). Decision D2. -/
def branchTarget (imm : Imm8) (rb : Reg) (s : State) : Word :=
  match s.cfg.branchMode with
  | .pcRelative => s.pc + imm16 s.cfg imm
  | .basePlusImm => effAddr imm rb s

end Sys2Proof.Machine
end

