-- ==== Sys2Proof/Machine/Branch.lean ====
section
/-! DEFINITION. The Type I control-transfer instructions BZ, BAL (45_type_i_branch.md). -/

namespace Sys2Proof.Machine

/-- BZ: to the branch target if all 16 bits of the stored register are zero, else on (R151, R154). -/
def execBz (ra : Reg) (imm : Imm8) (rb : Reg) (s : State) : Result :=
  .next (if isZero (s.readReg ra) then s.setPc (branchTarget imm rb s) else s.advance)

/-- BAL: link `pc + 1` and go to the branch target, both computed before either is written (R152, R154, decision D13). -/
def execBal (ra : Reg) (imm : Imm8) (rb : Reg) (s : State) : Result :=
  .next ((s.writeReg ra (s.pc + 1#16)).setPc (branchTarget imm rb s))

end Sys2Proof.Machine
end

