-- ==== Sys2Proof/Machine/InOut.lean ====
section
/-! DEFINITION. The Type I input and output instructions IN, OUT (44_type_i_io.md). -/

namespace Sys2Proof.Machine

/-- IN: the environment's answer into a register (R141). -/
def execIn (ra : Reg) (s : State) : Result :=
  .next (s.takeInput.finishWith ra s.portIn)

/-- OUT: the stored register onto the output trace (R142). -/
def execOut (ra : Reg) (s : State) : Result :=
  .next (s.portOut (s.readReg ra)).advance

end Sys2Proof.Machine
end

