-- ==== Sys2Proof/Machine/LoadStore.lean ====
section
/-! DEFINITION. The Type I memory and address instructions LD, ST, LDA (43_type_i_memory.md). -/

namespace Sys2Proof.Machine

/-- LD: load the DMEM word at the effective address (R131). -/
def execLd (ra : Reg) (imm : Imm8) (rb : Reg) (s : State) : Result :=
  .next (s.finishWith ra (s.memRead (effAddr imm rb s)))

/-- ST: store the register at the effective address (R132). -/
def execSt (ra : Reg) (imm : Imm8) (rb : Reg) (s : State) : Result :=
  .next (s.memWrite (effAddr imm rb s) (s.readReg ra)).advance

/-- LDA: the effective address itself; no memory is accessed (R133). -/
def execLda (ra : Reg) (imm : Imm8) (rb : Reg) (s : State) : Result :=
  .next (s.finishWith ra (effAddr imm rb s))

end Sys2Proof.Machine
end

