-- ==== Sys2Proof/Machine/TypeR.lean ====
section
/-! DEFINITION. The Type R instructions ADD, AND, SUB, SLT (40_type_r_alu.md). Both sources are read before the
destination is written (R100). -/

namespace Sys2Proof.Machine

/-- ADD: the sum modulo `2^16` (R101). -/
def execAdd (rd rs1 rs2 : Reg) (s : State) : Result :=
  .next (s.finishWith rd (s.readReg rs1 + s.readReg rs2))

/-- AND: bitwise (R102). -/
def execAnd (rd rs1 rs2 : Reg) (s : State) : Result :=
  .next (s.finishWith rd (s.readReg rs1 &&& s.readReg rs2))

/-- SUB: first source minus second source, modulo `2^16` (R103). -/
def execSub (rd rs1 rs2 : Reg) (s : State) : Result :=
  .next (s.finishWith rd (s.readReg rs1 - s.readReg rs2))

/-- SLT: 1 if the first source is less than the second, else 0 (R104). -/
def execSlt (rd rs1 rs2 : Reg) (s : State) : Result :=
  .next (s.finishWith rd (if lessThan s.cfg (s.readReg rs1) (s.readReg rs2) then 0x0001#16 else 0x0000#16))

end Sys2Proof.Machine
end

