-- ==== Sys2Proof/Machine/TypeR0.lean ====
section
/-! DEFINITION. The Type R0 instruction HLT (42_type_r0_hlt.md). -/

namespace Sys2Proof.Machine

/-- HLT: the processor stops; `pc` keeps the address of the HLT (R120, decision D10). -/
def execHlt (s : State) : Result := .next s.halt

end Sys2Proof.Machine
end

