-- ==== Sys2Proof/Machine/TypeR1.lean ====
section
/-! DEFINITION. The Type R1 instructions NOT, SR (41_type_r1_unary.md). -/

namespace Sys2Proof.Machine

/-- The result of SR: one position to the right, filled by `SR_FILL` (R112, decision D4). -/
def shiftRightOne (cfg : Config) (a : Word) : Word :=
  match cfg.srFill with
  | .zero => a >>> 1
  | .sign => a.sshiftRight 1

/-- NOT: the one's complement (R111). -/
def execNot (rd rs : Reg) (s : State) : Result :=
  .next (s.finishWith rd (~~~ (s.readReg rs)))

/-- SR: shift right by one (R112). -/
def execSr (rd rs : Reg) (s : State) : Result :=
  .next (s.finishWith rd (shiftRightOne s.cfg (s.readReg rs)))

end Sys2Proof.Machine
end

