-- ==== Sys2Proof/Machine/Dispatch.lean ====
section
/-! DEFINITION. One arm per instruction, each one direct call of its meaning. -/

namespace Sys2Proof.Machine

/-- What one instruction does in a state (30_encoding.md Table R70). -/
def exec (i : Instr) (s : State) : Host.Outcome State Fault Refusal :=
  match i with
  | .add rd rs1 rs2 => Sys2Proof.Machine.execAdd rd rs1 rs2 s
  | .and rd rs1 rs2 => Sys2Proof.Machine.execAnd rd rs1 rs2 s
  | .sub rd rs1 rs2 => Sys2Proof.Machine.execSub rd rs1 rs2 s
  | .slt rd rs1 rs2 => Sys2Proof.Machine.execSlt rd rs1 rs2 s
  | .not rd rs => Sys2Proof.Machine.execNot rd rs s
  | .sr rd rs => Sys2Proof.Machine.execSr rd rs s
  | .hlt => Sys2Proof.Machine.execHlt s
  | .ld ra imm rb => Sys2Proof.Machine.execLd ra imm rb s
  | .st ra imm rb => Sys2Proof.Machine.execSt ra imm rb s
  | .lda ra imm rb => Sys2Proof.Machine.execLda ra imm rb s
  | .inp ra => Sys2Proof.Machine.execIn ra s
  | .out ra => Sys2Proof.Machine.execOut ra s
  | .bz ra imm rb => Sys2Proof.Machine.execBz ra imm rb s
  | .bal ra imm rb => Sys2Proof.Machine.execBal ra imm rb s

end Sys2Proof.Machine
end

