-- ==== Sys2Proof/Decode.lean ====
section
/-! DEFINITION. Decoding a 16-bit instruction word, total on every word and rejecting by name, and the canonical encoding
(30_encoding.md R60 to R73). The field extractions follow the four bitmaps of R61 to R64. -/

namespace Sys2Proof

/-! ### Register selectors -/

/-- The register a 2-bit field selects (R65). -/
def Reg.ofBits (b : BitVec 2) : Reg :=
  match b with
  | 0#2 => .r0
  | 1#2 => .r1
  | 2#2 => .r2
  | _ => .r3

/-- The 2-bit address of a register (R20, R65). -/
def Reg.bits : Reg → BitVec 2
  | .r0 => 0#2
  | .r1 => 1#2
  | .r2 => 2#2
  | .r3 => 3#2

/-! ### Fields of a word -/

/-- `op = w[15:12]` in every format (R60). -/
def opField (w : Word) : BitVec 4 := w.extractLsb' 12 4

/-- `w[11:10]`: `rs1` of Type R, `rs` of Type R1, `ra` of Type I. -/
def regField11 (w : Word) : Reg := Reg.ofBits (w.extractLsb' 10 2)

/-- `w[9:8]`: `rs2` of Type R, `rb` of Type I. -/
def regField9 (w : Word) : Reg := Reg.ofBits (w.extractLsb' 8 2)

/-- `w[7:6]`: `rd` of Types R and R1. -/
def regField7 (w : Word) : Reg := Reg.ofBits (w.extractLsb' 6 2)

/-- `imm8 = w[7:0]` (R67). -/
def immField (w : Word) : Imm8 := w.extractLsb' 0 8

/-- The bits the source labels "Unused" in the format of an opcode: bits 5:0 of Type R, bits 9:8 and 5:0 of Type R1, bits
11:0 of Type R0, none of Type I (R66; the strict masks of opcode_table.json without the opcode bits). -/
def unusedMask (op : BitVec 4) : Word :=
  match op with
  | 0x0#4 => 0x003F#16
  | 0x1#4 => 0x003F#16
  | 0x2#4 => 0x003F#16
  | 0x3#4 => 0x003F#16
  | 0x4#4 => 0x033F#16
  | 0x6#4 => 0x033F#16
  | 0x7#4 => 0x0FFF#16
  | _ => 0x0000#16

/-- The base field of a BZ or BAL word: ignored, so the canonical `$0`, under `pc_relative`; `w[9:8]` under
`base_plus_imm` (R66, R154). -/
def branchBaseField (cfg : Config) (w : Word) : Reg :=
  match cfg.branchMode with
  | .pcRelative => .r0
  | .basePlusImm => regField9 w

/-! ### The decoder -/

/-- Why a word is no instruction. Both reasons are the model fault `IllegalOpcode` of 60_exceptions.md R161. -/
inductive DecodeError where
  /-- Opcode `0x5` or `0xB`: no row of the opcode table (R71, decision D8). -/
  | unassignedOpcode (op : BitVec 4)
  /-- A 1 in a bit labelled "Unused", under `STRICT_UNUSED = true` only (R66, decision D7). -/
  | unusedBitSet (w : Word)
deriving DecidableEq, Repr

/-- The instruction `op` selects, by Table R70. -/
def decodeOp (cfg : Config) (w : Word) : Except DecodeError Instr :=
  match opField w with
  | 0x0#4 => .ok (.add (regField7 w) (regField11 w) (regField9 w))
  | 0x1#4 => .ok (.and (regField7 w) (regField11 w) (regField9 w))
  | 0x2#4 => .ok (.sub (regField7 w) (regField11 w) (regField9 w))
  | 0x3#4 => .ok (.slt (regField7 w) (regField11 w) (regField9 w))
  | 0x4#4 => .ok (.not (regField7 w) (regField11 w))
  | 0x6#4 => .ok (.sr (regField7 w) (regField11 w))
  | 0x7#4 => .ok .hlt
  | 0x8#4 => .ok (.ld (regField11 w) (immField w) (regField9 w))
  | 0x9#4 => .ok (.st (regField11 w) (immField w) (regField9 w))
  | 0xA#4 => .ok (.lda (regField11 w) (immField w) (regField9 w))
  | 0xC#4 => .ok (.inp (regField11 w))
  | 0xD#4 => .ok (.out (regField11 w))
  | 0xE#4 => .ok (.bz (regField11 w) (immField w) (branchBaseField cfg w))
  | 0xF#4 => .ok (.bal (regField11 w) (immField w) (branchBaseField cfg w))
  | op => .error (.unassignedOpcode op)

/-- Decode of a fetched word (R60, R66, R71). -/
def decode (cfg : Config) (w : Word) : Except DecodeError Instr :=
  if cfg.strictUnused && (w &&& unusedMask (opField w)) != 0x0000#16 then .error (.unusedBitSet w)
  else decodeOp cfg w

/-- What the decoder reads, under the default parameters, from a table row's word of `nbits` bits. The machine's memory
holds whole words, so laying the word out and reading it back is the word itself. -/
def decodeTableWord (nbits w : Nat) : Option Instr :=
  match decode Config.default (BitVec.ofNat 16 (w % 2 ^ nbits)) with
  | .ok i => some i
  | .error _ => none

/-! ### The canonical encoding (R73) -/

/-- A field's value with its lowest bit at position `lo` of the word: the `field << lo` of R73. -/
def fieldAt {n : Nat} (lo : Nat) (b : BitVec n) : Word := b.setWidth 16 <<< lo

/-- Type R: `(op << 12) | (rs1 << 10) | (rs2 << 8) | (rd << 6)` (R61, R73). -/
def encodeR (op : BitVec 4) (rd rs1 rs2 : Reg) : Word :=
  fieldAt 12 op ||| fieldAt 10 rs1.bits ||| fieldAt 8 rs2.bits ||| fieldAt 6 rd.bits

/-- Type R1: `(op << 12) | (rs << 10) | (rd << 6)` (R62, R73). -/
def encodeR1 (op : BitVec 4) (rd rs : Reg) : Word :=
  fieldAt 12 op ||| fieldAt 10 rs.bits ||| fieldAt 6 rd.bits

/-- Type R0: `op << 12` (R63, R73). -/
def encodeR0 (op : BitVec 4) : Word := fieldAt 12 op

/-- Type I: `(op << 12) | (ra << 10) | (rb << 8) | imm8` (R64, R73). -/
def encodeI (op : BitVec 4) (ra rb : Reg) (imm : Imm8) : Word :=
  fieldAt 12 op ||| fieldAt 10 ra.bits ||| fieldAt 8 rb.bits ||| fieldAt 0 imm

/-- The word of an instruction; canonical for a well-formed one (R73). A branch carries its base field, which is `$0` in a
well-formed branch under `pc_relative`. -/
def encode : Instr → Word
  | .add rd rs1 rs2 => encodeR 0x0#4 rd rs1 rs2
  | .and rd rs1 rs2 => encodeR 0x1#4 rd rs1 rs2
  | .sub rd rs1 rs2 => encodeR 0x2#4 rd rs1 rs2
  | .slt rd rs1 rs2 => encodeR 0x3#4 rd rs1 rs2
  | .not rd rs => encodeR1 0x4#4 rd rs
  | .sr rd rs => encodeR1 0x6#4 rd rs
  | .hlt => encodeR0 0x7#4
  | .ld ra imm rb => encodeI 0x8#4 ra rb imm
  | .st ra imm rb => encodeI 0x9#4 ra rb imm
  | .lda ra imm rb => encodeI 0xA#4 ra rb imm
  | .inp ra => encodeI 0xC#4 ra .r0 0x00#8
  | .out ra => encodeI 0xD#4 ra .r0 0x00#8
  | .bz ra imm rb => encodeI 0xE#4 ra rb imm
  | .bal ra imm rb => encodeI 0xF#4 ra rb imm

end Sys2Proof
end

