-- ==== Sys2Proof/Machine/Fetch.lean ====
section
/-! DEFINITION. What a step finds before it executes: a stopped machine, a word that is not there, a word that is no
instruction, or an instruction (60_exceptions.md R161, R164). And the word an opcode-table row stands for, in memory. -/

namespace Sys2Proof.Machine

/-- Fetch at `pc`, then decode; a halted machine does not fetch (42_type_r0_hlt.md R121; 60_exceptions.md R164). -/
def nextInstr (s : State) : Except Fault Instr :=
  if s.halted then .error .halted
  else
    match s.ifetch s.pc with
    | none => .error (.fetchFault s.pc)
    | some w =>
      match decode s.cfg w with
      | .error _ => .error (.illegalOpcode w)
      | .ok i => .ok i

/-- Place a word in IMEM at `pc`, of a machine that is not halted. -/
def State.placeWord (s : State) (w : Word) : State :=
  { s with imem := Memory.store s.imem s.pc.toNat w, halted := false }

end Sys2Proof.Machine
end

