-- ==== Sys2Proof/Machine/Assembler.lean ====
section
/-! DEFINITION. How an assembly line becomes instruction fields (30_encoding.md R69, R74 to R77). The word is then that of
`encode`. A line with no encoding is refused as `none` (93_implementation_defined.md U13). -/

namespace Sys2Proof.Machine

/-- The field of an immediate written as the integer `v`: the two ranges of the source are two spellings of eight bits
(R69). -/
def immOfInt (v : Int) : Option Imm8 :=
  if -128 ≤ v ∧ v ≤ 255 then some (BitVec.ofInt 8 v) else none

/-- The field of a label that stands for an absolute address: its low 8 bits, legal only if they extend back to it
(R76, decision D15). -/
def absoluteLabelImm (cfg : Config) (label : Word) : Option Imm8 :=
  if imm16 cfg (label.setWidth 8) = label then some (label.setWidth 8) else none

/-- The field of a label counted from the branch at address `a`, legal only within -128 to 127 as integers (R76,
decision D15). -/
def relativeLabelImm (a label : Word) : Option Imm8 :=
  if -128 ≤ (label.toNat : Int) - a.toNat ∧ (label.toNat : Int) - a.toNat ≤ 127 then
    some (BitVec.ofInt 8 ((label.toNat : Int) - a.toNat))
  else none

/-- The field of a branch's label under `BRANCH_MODE` (R76). -/
def branchLabelImm (cfg : Config) (a label : Word) : Option Imm8 :=
  match cfg.branchMode with
  | .pcRelative => relativeLabelImm a label
  | .basePlusImm => absoluteLabelImm cfg label

/-- `OP $d, $s, $t` (R75). -/
def asmR (op : OpR) (d s t : Reg) : Instr :=
  match op with
  | .add => .add d s t
  | .and => .and d s t
  | .sub => .sub d s t
  | .slt => .slt d s t

/-- `OP $d, $s` (R75). -/
def asmR1 (op : OpR1) (d s : Reg) : Instr :=
  match op with
  | .not => .not d s
  | .sr => .sr d s

/-- `OP $a, k($b)` of LD, ST, LDA, its immediate field given (R75). -/
def asmMem (op : OpMem) (a : Reg) (imm : Imm8) (b : Reg) : Instr :=
  match op with
  | .ld => .ld a imm b
  | .st => .st a imm b
  | .lda => .lda a imm b

/-- `OP $a, k($b)` of BZ, BAL, its immediate field given; the base is encoded in either mode (R75). -/
def asmBranch (op : OpBranch) (a : Reg) (imm : Imm8) (b : Reg) : Instr :=
  match op with
  | .bz => .bz a imm b
  | .bal => .bal a imm b

/-- The instruction of an assembly line that stands at IMEM address `at_` (R75 to R77). -/
def assemble (cfg : Config) (at_ : Word) : AsmLine → Option Instr
  | .typeR op d s t => some (asmR op d s t)
  | .typeR1 op d s => some (asmR1 op d s)
  | .hlt => some .hlt
  | .mem op a k b => (immOfInt k).map fun imm => asmMem op a imm b
  | .memLabel op a label => (absoluteLabelImm cfg label).map fun imm => asmMem op a imm .r0
  | .inp a => some (.inp a)
  | .out a => some (.out a)
  | .branch op a k b => (immOfInt k).map fun imm => asmBranch op a imm b
  | .branchLabel op a label => (branchLabelImm cfg at_ label).map fun imm => asmBranch op a imm .r0

end Sys2Proof.Machine
end

