-- ==== Sys2Proof/WellFormed.lean ====
section
/-! DEFINITION. Which terms of `Instr` are instructions of the machine under given parameters. Register numbers and
immediates fit their fields by type (30_encoding.md R65, R67), so one check is left: the base field of a branch. -/

namespace Sys2Proof

/-- Under `BRANCH_MODE = pc_relative` the `rb` field of BZ and BAL is ignored and zero in the canonical word; under
`base_plus_imm` it is a field of the instruction (30_encoding.md R66, R73; 45_type_i_branch.md R154). -/
def branchBaseOk (cfg : Config) (rb : Reg) : Bool :=
  match cfg.branchMode with
  | .pcRelative => rb == .r0
  | .basePlusImm => true

/-- `i` is one of the instructions the canonical words of the machine stand for (30_encoding.md R73). -/
def Instr.wellFormed (cfg : Config) : Instr → Bool
  | .add _ _ _ => true
  | .and _ _ _ => true
  | .sub _ _ _ => true
  | .slt _ _ _ => true
  | .not _ _ => true
  | .sr _ _ => true
  | .hlt => true
  | .ld _ _ _ => true
  | .st _ _ _ => true
  | .lda _ _ _ => true
  | .inp _ => true
  | .out _ => true
  | .bz _ _ rb => branchBaseOk cfg rb
  | .bal _ _ rb => branchBaseOk cfg rb

end Sys2Proof
end

