-- ==== Sys2Proof/Safety.lean ====
section
/-! DEFINITION. The terms in which the statements speak: the machine's invariant, what a step leaves unchanged, and the
words and values of the spec's tables as plain numbers, written without the decoder's own field functions. -/

namespace Sys2Proof.Machine

/-! ### The invariant, and what executes next -/

/-- Both memories have their canonical form. -/
def State.Canonical (s : State) : Prop := Memory.wf s.imem = true ∧ Memory.wf s.dmem = true

/-- The instruction a running machine executes next is `i`: it is not halted, and the word at `pc` decodes to `i`. -/
def State.Executes (s : State) (i : Instr) : Prop :=
  s.halted = false ∧ ∃ w, s.ifetch s.pc = some w ∧ decode s.cfg w = .ok i

/-! ### Frames -/

/-- Every register but `rd` is unchanged. -/
def SameRegsBut (rd : Reg) (s t : State) : Prop := ∀ r, r ≠ rd → t.readReg r = s.readReg r

/-- Every register is unchanged. -/
def SameRegs (s t : State) : Prop := ∀ r, t.readReg r = s.readReg r

/-- Every DMEM word is unchanged, as a load would read it. -/
def SameMem (s t : State) : Prop := ∀ a, t.memRead a = s.memRead a

/-- Every DMEM word but the one at `ea` is unchanged, as a load would read it. -/
def SameMemBut (ea : Word) (s t : State) : Prop := ∀ a, a ≠ ea → t.memRead a = s.memRead a

/-- The environment's answers are unchanged: no IN was consumed. -/
def SameInput (s t : State) : Prop := t.input = s.input ∧ t.inCount = s.inCount

/-- The output trace is unchanged. -/
def SameOut (s t : State) : Prop := t.out = s.out

/-- The run parameters are unchanged: the settings, and every word of the instruction memory. -/
def SameRun (s t : State) : Prop := t.cfg = s.cfg ∧ t.imem = s.imem

/-- Memory, ports, halt and run parameters are unchanged: only registers and `pc` may differ. -/
def OnlyRegsAndPc (s t : State) : Prop :=
  SameMem s t ∧ SameInput s t ∧ SameOut s t ∧ SameRun s t ∧ t.halted = s.halted

/-- `pc` went on by one word, modulo `2^16`. That it wraps is the spec's own choice, decision D6 (log 6). -/
def PcNext (s t : State) : Prop := t.pc.toNat = (s.pc.toNat + 1) % 65536

/-- The frame of an instruction that computes one register: everything but `rd` and `pc` is unchanged. It
holds the wrap of `pc`, decision D6 (log 6). -/
def WritesOnly (rd : Reg) (s t : State) : Prop := SameRegsBut rd s t ∧ PcNext s t ∧ OnlyRegsAndPc s t

/-! ### The spec's tables in numbers -/

/-- The number of a register (10_state.md R20). -/
def regNumber : Reg → Nat
  | .r0 => 0
  | .r1 => 1
  | .r2 => 2
  | .r3 => 3

/-- The opcode of a Type R mnemonic (Table R70). -/
def codeR : OpR → Nat
  | .add => 0
  | .and => 1
  | .sub => 2
  | .slt => 3

/-- The opcode of a Type R1 mnemonic (Table R70). -/
def codeR1 : OpR1 → Nat
  | .not => 4
  | .sr => 6

/-- The opcode of LD, ST, LDA (Table R70). -/
def codeMem : OpMem → Nat
  | .ld => 8
  | .st => 9
  | .lda => 10

/-- The opcode of BZ, BAL (Table R70). -/
def codeBranch : OpBranch → Nat
  | .bz => 14
  | .bal => 15

/-- The word whose bits 15:12, 11:10, 9:8, 7:6 and 5:0 hold the given numbers (Tables R61, R62). -/
def wordOf5 (op f11 f9 f7 low : Nat) : Word := BitVec.ofNat 16 (op * 4096 + f11 * 1024 + f9 * 256 + f7 * 64 + low)

/-- The word whose bits 15:12, 11:10, 9:8 and 7:0 hold the given numbers (Table R64). -/
def wordOf4 (op f11 f9 low : Nat) : Word := BitVec.ofNat 16 (op * 4096 + f11 * 1024 + f9 * 256 + low)

/-- The unsigned value of `Imm16(imm8)` (30_encoding.md R68). -/
def immValue (cfg : Config) (imm : Imm8) : Nat :=
  if cfg.immExt = .sext ∧ 128 ≤ imm.toNat then imm.toNat + 65280 else imm.toNat

/-- The unsigned value of `BaseVal(rb)` (20_memory.md R44). -/
def baseValue (rb : Reg) (s : State) : Nat := if rb = .r0 then 0 else (s.readReg rb).toNat

/-- The words the spec calls no instruction: opcodes `0x5` and `0xB`, and under `STRICT_UNUSED` those with a 1 in a bit
labelled "Unused" (30_encoding.md R66, R71). -/
def IllegalWord (cfg : Config) (w : Word) : Prop :=
  w.toNat / 4096 = 5 ∨ w.toNat / 4096 = 11 ∨
  (cfg.strictUnused = true ∧
    ((w.toNat / 4096 ≤ 3 ∧ w.toNat % 64 ≠ 0) ∨
     ((w.toNat / 4096 = 4 ∨ w.toNat / 4096 = 6) ∧ (w.toNat % 64 ≠ 0 ∨ w.toNat / 256 % 4 ≠ 0)) ∨
     (w.toNat / 4096 = 7 ∧ w.toNat % 4096 ≠ 0)))

/-- The bits of a word that decoding an instruction reads: all but the unused bits, the `rb` and `imm8` of IN and OUT, and,
under `pc_relative`, the `rb` of BZ and BAL (30_encoding.md R66, R73). -/
def keptBits (cfg : Config) : Instr → Word
  | .add _ _ _ => 0xFFC0#16
  | .and _ _ _ => 0xFFC0#16
  | .sub _ _ _ => 0xFFC0#16
  | .slt _ _ _ => 0xFFC0#16
  | .not _ _ => 0xFCC0#16
  | .sr _ _ => 0xFCC0#16
  | .hlt => 0xF000#16
  | .ld _ _ _ => 0xFFFF#16
  | .st _ _ _ => 0xFFFF#16
  | .lda _ _ _ => 0xFFFF#16
  | .inp _ => 0xFC00#16
  | .out _ => 0xFC00#16
  | .bz _ _ _ => if cfg.branchMode = .pcRelative then 0xFCFF#16 else 0xFFFF#16
  | .bal _ _ _ => if cfg.branchMode = .pcRelative then 0xFCFF#16 else 0xFFFF#16

end Sys2Proof.Machine
end

