-- ==== Sys2Proof/Certificates/Slice0/Obligations.lean ====
section
/-! DEFINITION. The statements for the provers. Each docstring names the rule or the section of spec/ the statement comes
from. Where a clause rests on a decision of 92_eei_decisions.md, which the spec marks as its own choice, the docstring names
the decision and the assumption-log entry, and OBLIGATIONS.json lists the statement as derived. `PcNext`, and `WritesOnly`
with it, say that `pc` wraps modulo `2^16`, which is decision D6 (log 6); a result in terms of the state before the
instruction, also where a destination is a source, is decision D13 (log 15). -/

open Sys2Proof Sys2Proof.Machine

/-! ### Type R and Type R1 -/

/-- ADD (40_type_r_alu.md, ADD). That the sum and `pc` wrap are the spec's decisions D5 and D6 (log 6). -/
def Obligations.AddWritesSumModulo : Prop :=
  ∀ (rd rs1 rs2 : Reg) (s : State), ∃ t, exec (.add rd rs1 rs2) s = .next t ∧
    (t.readReg rd).toNat = ((s.readReg rs1).toNat + (s.readReg rs2).toNat) % 65536 ∧ WritesOnly rd s t

/-- AND (40_type_r_alu.md, AND): its word, and every bit of its result. That `pc` wraps is the spec's decision D6 (log 6). -/
def Obligations.AndWritesBitwiseAnd : Prop :=
  (∀ (cfg : Config) (rd rs1 rs2 : Reg),
    decode cfg (wordOf5 1 (regNumber rs1) (regNumber rs2) (regNumber rd) 0) = .ok (.and rd rs1 rs2)) ∧
  ∀ (rd rs1 rs2 : Reg) (s : State), ∃ t, exec (.and rd rs1 rs2) s = .next t ∧
    (∀ k, k < 16 → ((t.readReg rd).getLsbD k = true ↔
      (s.readReg rs1).getLsbD k = true ∧ (s.readReg rs2).getLsbD k = true)) ∧
    WritesOnly rd s t

/-- SUB (40_type_r_alu.md, SUB): first source minus second. That it and `pc` wrap are the spec's
decisions D5 and D6 (log 6). -/
def Obligations.SubWritesDifferenceModulo : Prop :=
  ∀ (rd rs1 rs2 : Reg) (s : State), ∃ t, exec (.sub rd rs1 rs2) s = .next t ∧
    ((t.readReg rd).toNat : Int) = (((s.readReg rs1).toNat : Int) - (s.readReg rs2).toNat) % 65536 ∧ WritesOnly rd s t

/-- SLT (40_type_r_alu.md, SLT), under both values of `SLT_SIGNED`, decision D3 (log 4); that `pc` wraps is D6 (log 6). -/
def Obligations.SltWritesComparison : Prop :=
  ∀ (rd rs1 rs2 : Reg) (s : State), ∃ t, exec (.slt rd rs1 rs2) s = .next t ∧ WritesOnly rd s t ∧
    (s.cfg.sltSigned = true →
      (t.readReg rd).toNat = if (s.readReg rs1).toInt < (s.readReg rs2).toInt then 1 else 0) ∧
    (s.cfg.sltSigned = false →
      (t.readReg rd).toNat = if (s.readReg rs1).toNat < (s.readReg rs2).toNat then 1 else 0)

/-- The two readings of SLT differ exactly when bits 15 differ (40_type_r_alu.md, SLT, Signedness; decision D3, log 4). -/
def Obligations.SltReadingsDifferOnSignBits : Prop :=
  ∀ (c d : Config) (a b : Word), c.sltSigned = true → d.sltSigned = false →
    (lessThan c a b ≠ lessThan d a b ↔ a.getLsbD 15 ≠ b.getLsbD 15)

/-- NOT (41_type_r1_unary.md, NOT): its word, every bit of its result, and the result as a number. That `pc` wraps is the
spec's decision D6 (log 6). -/
def Obligations.NotWritesOnesComplement : Prop :=
  (∀ (cfg : Config) (rd rs : Reg),
    decode cfg (wordOf5 4 (regNumber rs) 0 (regNumber rd) 0) = .ok (.not rd rs)) ∧
  ∀ (rd rs : Reg) (s : State), ∃ t, exec (.not rd rs) s = .next t ∧
    (∀ k, k < 16 → ((t.readReg rd).getLsbD k = true ↔ (s.readReg rs).getLsbD k = false)) ∧
    (t.readReg rd).toNat = 65535 - (s.readReg rs).toNat ∧ WritesOnly rd s t

/-- SR (41_type_r1_unary.md, SR), under both values of `SR_FILL`: the amount is the source's presumption, the fill is the
spec's decision D4 (log 5), and the wrap of `pc` D6 (log 6). -/
def Obligations.SrHalvesItsOperand : Prop :=
  ∀ (rd rs : Reg) (s : State), ∃ t, exec (.sr rd rs) s = .next t ∧ WritesOnly rd s t ∧
    (s.cfg.srFill = .zero → (t.readReg rd).toNat = (s.readReg rs).toNat / 2) ∧
    (s.cfg.srFill = .sign → (t.readReg rd).toInt = (s.readReg rs).toInt.fdiv 2)

/-- The Type R step (40_type_r_alu.md section 1): the result is a function of the two stored sources alone, whatever bits
5:0 hold. That unchecked unused bits are ignored is the spec's decision D7 (log 7), that sources are read before the write
D13 (log 15), and that `pc` wraps D6 (log 6). -/
def Obligations.TypeRStepShape : Prop :=
  ∀ op : OpR, ∃ f : Config → Word → Word → Word, ∀ (rd rs1 rs2 : Reg) (low : Nat) (s : State),
    low < 64 → s.halted = false → (s.cfg.strictUnused = false ∨ low = 0) →
    s.ifetch s.pc = some (wordOf5 (codeR op) (regNumber rs1) (regNumber rs2) (regNumber rd) low) →
    ∃ t, step s = .next t ∧ t.readReg rd = f s.cfg (s.readReg rs1) (s.readReg rs2) ∧ WritesOnly rd s t

/-- The Type R1 step (41_type_r1_unary.md section 1): the result is a function of the stored source alone, whatever bits 9:8
and 5:0 hold. That unchecked unused bits are ignored is the spec's decision D7 (log 7), that the source is read before the
write D13 (log 15), and that `pc` wraps D6 (log 6). -/
def Obligations.TypeR1StepShape : Prop :=
  ∀ op : OpR1, ∃ f : Config → Word → Word, ∀ (rd rs : Reg) (mid low : Nat) (s : State),
    mid < 4 → low < 64 → s.halted = false → (s.cfg.strictUnused = false ∨ (mid = 0 ∧ low = 0)) →
    s.ifetch s.pc = some (wordOf5 (codeR1 op) (regNumber rs) mid (regNumber rd) low) →
    ∃ t, step s = .next t ∧ t.readReg rd = f s.cfg (s.readReg rs) ∧ WritesOnly rd s t

/-- Negation by NOT then LDA 1 (30_encoding.md section 5, pseudo-instructions), for a destination in `$1` to `$3`.
The wraps are the spec's decisions D5 and D6 (log 6). -/
def Obligations.NotThenLdaOneNegates : Prop :=
  ∀ (rd rs : Reg) (s : State), rd ≠ .r0 → ∃ t u, exec (.not rd rs) s = .next t ∧
    exec (.lda rd 0x01#8 rd) t = .next u ∧
    ((u.readReg rd).toNat + (s.readReg rs).toNat) % 65536 = 0 ∧
    u.pc.toNat = (s.pc.toNat + 2) % 65536 ∧ SameRegsBut rd s u ∧ OnlyRegsAndPc s u

/-! ### HLT -/

/-- HLT (42_type_r0_hlt.md): it stops the processor and writes nothing else; that `pc` stays is the spec's decision D10
(log 10). -/
def Obligations.HltStopsInPlace : Prop :=
  ∀ s : State, ∃ t, exec .hlt s = .next t ∧ t.halted = true ∧ t.pc = s.pc ∧ SameRegs s t ∧ SameMem s t ∧
    SameInput s t ∧ SameOut s t ∧ SameRun s t

/-- A halted machine has no step (42_type_r0_hlt.md section 1, the halted machine; decision D10, log 10): a machine that
executes HLT takes that one step and no more. The named stop `halted` is the model's way to say so. -/
def Obligations.HaltEndsTheRun : Prop :=
  (∀ (k : Nat) (s : State), s.halted = true → Host.Core.run Sys2Proof.core (k + 1) s = .fault .halted) ∧
  (∀ (k : Nat) (s : State), s.Executes .hlt →
    (∃ t, Host.Core.run Sys2Proof.core 1 s = .next t ∧ t.halted = true) ∧
    Host.Core.run Sys2Proof.core (k + 2) s = .fault .halted)

/-! ### Memory -/

/-- One access moves one word (R46): a write gives its word the value and changes no other. -/
def Obligations.AccessMovesOneWord : Prop :=
  ∀ (s : State) (a v : Word), (s.memWrite a v).memRead a = v ∧ SameMemBut a s (s.memWrite a v)

/-- The effective address as a number (20_memory.md section 2), under both values of `IMM_EXT`; extension and wrap are
the spec's decisions D1 and D5 (log 2, log 6). -/
def Obligations.EffectiveAddressSum : Prop :=
  ∀ (imm : Imm8) (rb : Reg) (s : State),
    (effAddr imm rb s).toNat = (baseValue rb s + immValue s.cfg imm) % 65536

/-- LD (43_type_i_memory.md, LD); the address rests on decisions D1 and D5 (log 2, log 6), the memory meant on D19
(log 19), the wrap of `pc` on D6 (log 6). -/
def Obligations.LdLoadsTheWord : Prop :=
  ∀ (ra rb : Reg) (imm : Imm8) (s : State), ∃ t, exec (.ld ra imm rb) s = .next t ∧
    (∀ ea : Word, ea.toNat = (baseValue rb s + immValue s.cfg imm) % 65536 → t.readReg ra = s.memRead ea) ∧
    WritesOnly ra s t

/-- ST (43_type_i_memory.md, ST): the word at the effective address gets the register, and no other word, no register
and no word of IMEM changes. The address rests on decisions D1 and D5 (log 2, log 6), the memory meant on D19 (log 19), the
wrap of `pc` on D6 (log 6). -/
def Obligations.StStoresTheWord : Prop :=
  ∀ (ra rb : Reg) (imm : Imm8) (s : State), ∃ t, exec (.st ra imm rb) s = .next t ∧
    t.memRead (effAddr imm rb s) = s.readReg ra ∧ SameMemBut (effAddr imm rb s) s t ∧
    (effAddr imm rb s).toNat = (baseValue rb s + immValue s.cfg imm) % 65536 ∧
    SameRegs s t ∧ PcNext s t ∧ SameInput s t ∧ SameOut s t ∧ SameRun s t ∧ t.halted = s.halted

/-- LDA (43_type_i_memory.md, LDA): the effective address as a value; decisions D1, D5 and D6 (log 2, log 6). That
base `$0` is 0 here too is conflict C3 (log 22). -/
def Obligations.LdaWritesTheAddress : Prop :=
  ∀ (ra rb : Reg) (imm : Imm8) (s : State), ∃ t, exec (.lda ra imm rb) s = .next t ∧
    (t.readReg ra).toNat = (baseValue rb s + immValue s.cfg imm) % 65536 ∧ WritesOnly ra s t

/-- A load returns the latest store to its address and is blind to stores elsewhere (20_memory.md section 5; decision D16,
log 17). -/
def Obligations.LoadSeesLatestStore : Prop :=
  ∀ (ra rb rc : Reg) (imm : Imm8) (s : State), ∃ t, exec (.st ra imm rb) s = .next t ∧
    (∃ u, exec (.ld rc imm rb) t = .next u ∧ u.readReg rc = s.readReg ra) ∧
    (∀ (imm' : Imm8) (rb' : Reg), effAddr imm' rb' s ≠ effAddr imm rb s →
      ∃ u v, exec (.ld rc imm' rb') t = .next u ∧ exec (.ld rc imm' rb') s = .next v ∧ u.readReg rc = v.readReg rc)

/-- A write of the value already present changes nothing (20_memory.md section 3). -/
def Obligations.StoreOfPresentValueIsIdle : Prop :=
  ∀ (s : State) (a v : Word), s.Canonical → Memory.lookup s.dmem a.toNat = some v → s.memWrite a v = s

/-- Canonical memories that list the same words are the same data (20_memory.md section 1; the form is the model's own,
log 16). -/
def Obligations.CanonicalMemoriesAreEqualAsData : Prop :=
  ∀ m n : Memory, Memory.wf m = true → Memory.wf n = true →
    (∀ a, Memory.lookup m a = Memory.lookup n a) → m = n

/-- `$0` keeps what is written to it and reads as stored in every field but Base, where it is the constant 0
(10_state.md section 1). That ADD doubles modulo `2^16` is the spec's decision D5 and that the untaken `pc` wraps D6 (log 6). -/
def Obligations.ZeroRegisterIsStoredButNoBase : Prop :=
  (∀ (s : State) (v : Word), (s.writeReg .r0 v).readReg .r0 = v ∧ SameRegsBut .r0 s (s.writeReg .r0 v)) ∧
  (∀ s : State, (baseVal .r0 s).toNat = 0) ∧
  (∀ s : State, ∃ t, exec (.add .r1 .r0 .r0) s = .next t ∧
    (t.readReg .r1).toNat = 2 * (s.readReg .r0).toNat % 65536) ∧
  (∀ s : State, ∃ t, exec (.st .r0 0x05#8 .r0) s = .next t ∧ t.memRead 0x0005#16 = s.readReg .r0) ∧
  (∀ (s : State) (imm : Imm8) (rb : Reg), ∃ t, exec (.bz .r0 imm rb) s = .next t ∧
    t.pc = if (s.readReg .r0).toNat = 0 then branchTarget imm rb s else s.pc + 1#16)

/-- Base `$0` is the constant 0 for every instruction that uses Base (20_memory.md section 2): the stored `$0` is not read,
while any other base is the stored register. That LDA is among them is conflict C3 (log 22); the BZ and BAL clauses, in both
branch modes, rest on the spec's decision D2 (log 3). -/
def Obligations.BaseZeroIgnoresStoredRegister : Prop :=
  (∀ s : State, baseVal .r0 s = 0x0000#16 ∧ (∀ rb, rb ≠ .r0 → baseVal rb s = s.readReg rb)) ∧
  (∀ (s : State) (v : Word) (imm : Imm8) (ra : Reg),
    (∃ t u, exec (.ld ra imm .r0) s = .next t ∧ exec (.ld ra imm .r0) (s.writeReg .r0 v) = .next u ∧
      u.readReg ra = t.readReg ra) ∧
    (∃ t u, exec (.lda ra imm .r0) s = .next t ∧ exec (.lda ra imm .r0) (s.writeReg .r0 v) = .next u ∧
      u.readReg ra = t.readReg ra) ∧
    (ra ≠ .r0 → ∃ t u, exec (.st ra imm .r0) s = .next t ∧ exec (.st ra imm .r0) (s.writeReg .r0 v) = .next u ∧
      SameMem t u) ∧
    (ra ≠ .r0 → ∃ t u, exec (.bz ra imm .r0) s = .next t ∧ exec (.bz ra imm .r0) (s.writeReg .r0 v) = .next u ∧
      u.pc = t.pc) ∧
    (∃ t u, exec (.bal ra imm .r0) s = .next t ∧ exec (.bal ra imm .r0) (s.writeReg .r0 v) = .next u ∧
      u.pc = t.pc))

/-- The reach of the absolute form (20_memory.md section 2, reach): the bottom and top 128 words under `sext`, the bottom
256 under `zext`, all of them and no others. The extension is the spec's decision D1 (log 2). -/
def Obligations.AbsoluteFormReach : Prop :=
  ∀ (s : State) (a : Word),
    (s.cfg.immExt = .sext → ((∃ imm, effAddr imm .r0 s = a) ↔ (a.toNat < 128 ∨ 65408 ≤ a.toNat))) ∧
    (s.cfg.immExt = .zext → ((∃ imm, effAddr imm .r0 s = a) ↔ a.toNat < 256))

/-! ### Ports -/

/-- IN (44_type_i_io.md, IN): the next listed answer, one answer used, and, where none is listed, a completed IN with the
free value of its number. One port that never blocks is the spec's decision D9 (log 9), the wrap of `pc` D6 (log 6). -/
def Obligations.InTakesTheAnswer : Prop :=
  ∀ (ra : Reg) (s : State), ∃ t, exec (.inp ra) s = .next t ∧
    (∀ v vs, s.input = v :: vs → t.readReg ra = v ∧ t.input = vs) ∧
    (s.input = [] → t.readReg ra = Config.unstatedInput s.inCount ∧ t.input = []) ∧
    t.inCount = s.inCount + 1 ∧ SameRegsBut ra s t ∧ PcNext s t ∧ SameMem s t ∧ SameOut s t ∧ SameRun s t ∧
    t.halted = s.halted

/-- OUT (44_type_i_io.md, OUT): the stored register is appended to the trace. One port that never blocks is the spec's
decision D9 (log 9), the wrap of `pc` D6 (log 6). -/
def Obligations.OutAppendsTheRegister : Prop :=
  ∀ (ra : Reg) (s : State), ∃ t, exec (.out ra) s = .next t ∧ t.out.length = s.out.length + 1 ∧ s.out <+: t.out ∧
    t.out.getLast? = some (s.readReg ra) ∧ SameRegs s t ∧ PcNext s t ∧ SameMem s t ∧ SameInput s t ∧ SameRun s t ∧
    t.halted = s.halted

/-! ### Branches -/

/-- BZ under `pc_relative`, whatever its base field holds (45_type_i_branch.md, BZ); target, extension and wrap are the
spec's decisions D2, D1 and D6 (log 3, log 2, log 6). -/
def Obligations.BzTestsAndBranches : Prop :=
  ∀ (ra rb : Reg) (imm : Imm8) (s : State), s.cfg.branchMode = .pcRelative →
    ∃ t, exec (.bz ra imm rb) s = .next t ∧
      (t.pc.toNat = if (s.readReg ra).toNat = 0 then (s.pc.toNat + immValue s.cfg imm) % 65536
        else (s.pc.toNat + 1) % 65536) ∧
      SameRegs s t ∧ OnlyRegsAndPc s t

/-- BAL under `pc_relative`, whatever its base field holds (45_type_i_branch.md, BAL); target, extension and wrap are the
spec's decisions D2, D1 and D6 (log 3, log 2, log 6). -/
def Obligations.BalLinksAndBranches : Prop :=
  ∀ (ra rb : Reg) (imm : Imm8) (s : State), s.cfg.branchMode = .pcRelative →
    ∃ t, exec (.bal ra imm rb) s = .next t ∧
      (t.readReg ra).toNat = (s.pc.toNat + 1) % 65536 ∧
      t.pc.toNat = (s.pc.toNat + immValue s.cfg imm) % 65536 ∧
      SameRegsBut ra s t ∧ OnlyRegsAndPc s t

/-- BZ and BAL under `base_plus_imm` (45_type_i_branch.md section 3, the other reading; decisions D2, D13, D1, D5 and D6,
logs 3, 15, 2 and 6): the base is read before the link is written. -/
def Obligations.BranchesWithBasePlusImm : Prop :=
  ∀ (ra rb : Reg) (imm : Imm8) (s : State), s.cfg.branchMode = .basePlusImm →
    (∃ t, exec (.bz ra imm rb) s = .next t ∧
      (t.pc.toNat = if (s.readReg ra).toNat = 0 then (baseValue rb s + immValue s.cfg imm) % 65536
        else (s.pc.toNat + 1) % 65536) ∧
      SameRegs s t ∧ OnlyRegsAndPc s t) ∧
    (∃ t, exec (.bal ra imm rb) s = .next t ∧
      (t.readReg ra).toNat = (s.pc.toNat + 1) % 65536 ∧
      t.pc.toNat = (baseValue rb s + immValue s.cfg imm) % 65536 ∧
      SameRegsBut ra s t ∧ OnlyRegsAndPc s t)

/-- Under `pc_relative` no instruction jumps to an address held in a register (45_type_i_branch.md section 3, calls and
returns; decision D2, log 3): the next `pc` depends on the registers through zero tests only. -/
def Obligations.NoIndirectJumpWhenPcRelative : Prop :=
  ∀ (i : Instr) (s s' t t' : State), s.cfg.branchMode = .pcRelative → s'.cfg = s.cfg → s'.pc = s.pc →
    (∀ r, (s'.readReg r).toNat = 0 ↔ (s.readReg r).toNat = 0) →
    exec i s = .next t → exec i s' = .next t' → t'.pc = t.pc

/-! ### Encoding -/

/-- Type R (30_encoding.md section 2): the four fields, for every register, with any unused bits where they are not checked.
That these are ignored is the spec's decision D7 (log 7). -/
def Obligations.TypeRFieldLayout : Prop :=
  ∀ (cfg : Config) (op : OpR) (rd rs1 rs2 : Reg) (low : Nat), low < 64 → (cfg.strictUnused = false ∨ low = 0) →
    decode cfg (wordOf5 (codeR op) (regNumber rs1) (regNumber rs2) (regNumber rd) low) = .ok (asmR op rd rs1 rs2)

/-- Type R1 (30_encoding.md section 2): the two fields, with any unused bits where they are not checked. That these are
ignored is the spec's decision D7 (log 7). -/
def Obligations.TypeR1FieldLayout : Prop :=
  ∀ (cfg : Config) (op : OpR1) (rd rs : Reg) (mid low : Nat), mid < 4 → low < 64 →
    (cfg.strictUnused = false ∨ (mid = 0 ∧ low = 0)) →
    decode cfg (wordOf5 (codeR1 op) (regNumber rs) mid (regNumber rd) low) = .ok (asmR1 op rd rs)

/-- Type R0 (30_encoding.md section 2): HLT, with any unused bits where they are not checked. That these are ignored is the
spec's decision D7 (log 7). -/
def Obligations.TypeR0FieldLayout : Prop :=
  ∀ (cfg : Config) (low : Nat), low < 4096 → (cfg.strictUnused = false ∨ low = 0) →
    decode cfg (BitVec.ofNat 16 (7 * 4096 + low)) = .ok .hlt

/-- Type I (30_encoding.md section 2): the three fields. IN and OUT use the first alone (decision D9, log 7); BZ and BAL
keep their base field under `base_plus_imm` and have it ignored, so `$0`, under `pc_relative` (decision D2, log 7). -/
def Obligations.TypeIFieldLayout : Prop :=
  ∀ (cfg : Config) (ra rb : Reg) (imm : Imm8),
    (∀ op : OpMem, decode cfg (wordOf4 (codeMem op) (regNumber ra) (regNumber rb) imm.toNat) =
      .ok (asmMem op ra imm rb)) ∧
    decode cfg (wordOf4 12 (regNumber ra) (regNumber rb) imm.toNat) = .ok (.inp ra) ∧
    decode cfg (wordOf4 13 (regNumber ra) (regNumber rb) imm.toNat) = .ok (.out ra) ∧
    (∀ op : OpBranch, decode cfg (wordOf4 (codeBranch op) (regNumber ra) (regNumber rb) imm.toNat) =
      .ok (asmBranch op ra imm (if cfg.branchMode = .pcRelative then .r0 else rb)))

/-- Decoding the word of a well-formed instruction gives the instruction back, under every setting (30_encoding.md section
4, canonical encoding). -/
def Obligations.DecodeEncodeRoundTrip : Prop :=
  ∀ (cfg : Config) (i : Instr), i.wellFormed cfg = true → decode cfg (encode i) = .ok i

/-- Every word that decodes gives a well-formed instruction, whose own word is the same word with the ignored bits cleared
(30_encoding.md section 4, canonical encoding; what is ignored are decisions D2, D7, D9, log 7). -/
def Obligations.EncodeOfDecodeIsCanonicalWord : Prop :=
  ∀ (cfg : Config) (w : Word) (i : Instr), decode cfg w = .ok i →
    i.wellFormed cfg = true ∧ encode i = w &&& keptBits cfg i

/-- Every term of `Instr`, well-formed or not, has a word that decodes to an instruction of the same meaning (30_encoding.md
sections 2 and 4; that the base field of a branch is ignored under `pc_relative` is decision D2, log 3). -/
def Obligations.EncodingKeepsTheMeaning : Prop :=
  ∀ (cfg : Config) (i : Instr), ∃ j, decode cfg (encode i) = .ok j ∧ ∀ s : State, s.cfg = cfg → exec j s = exec i s

/-- The decoder rejects exactly the words that are no instruction (30_encoding.md sections 2 and 4; decisions D7 and D8,
log 7 and log 8). -/
def Obligations.DecodeRejectsExactlyIllegalWords : Prop :=
  ∀ (cfg : Config) (w : Word), (∃ e, decode cfg w = .error e) ↔ IllegalWord cfg w

/-- A few words written out from the encodings decode to the instructions they stand for (95_test_vectors.md section 2). -/
def Obligations.SampleWordsDecode : Prop :=
  decode Config.default 0b0000101101000000#16 = .ok (.add .r1 .r2 .r3) ∧
  decode Config.default 0b0100010010000000#16 = .ok (.not .r2 .r1) ∧
  decode Config.default 0b0111000000000000#16 = .ok .hlt ∧
  decode Config.default 0b1000011100000010#16 = .ok (.ld .r1 0x02#8 .r3) ∧
  decode Config.default 0b1101100000000000#16 = .ok (.out .r2) ∧
  decode Config.default 0b1111000011111101#16 = .ok (.bal .r0 0xFD#8 .r0)

/-- What an assembler accepts as an immediate, and what reaches the hardware (30_encoding.md section 3; decision D1,
log 2 and log 21). -/
def Obligations.WrittenImmediates : Prop :=
  (∀ (v : Int) (imm : Imm8), immOfInt v = some imm ↔ (-128 ≤ v ∧ v ≤ 255 ∧ (imm.toNat : Int) = v % 256)) ∧
  (∀ (cfg : Config) (v : Int) (imm : Imm8), immOfInt v = some imm → cfg.immExt = .sext →
    (imm16 cfg imm).toInt = if v ≤ 127 then v else v - 256)

/-- A label an assembler accepts lands on the label (30_encoding.md section 5, the label form; decisions D2 and D15, log 3
and log 21): as a branch target in both modes, and as an LDA constant. -/
def Obligations.AcceptedLabelsLand : Prop :=
  ∀ (s : State) (a : Reg) (label : Word) (i : Instr),
    ((s.cfg.immExt = .sext ∨ s.cfg.branchMode = .basePlusImm) →
      assemble s.cfg s.pc (.branchLabel .bal a label) = some i → ∃ t, exec i s = .next t ∧ t.pc = label) ∧
    (assemble s.cfg s.pc (.memLabel .lda a label) = some i → ∃ t, exec i s = .next t ∧ t.readReg a = label)

/-- The only immediate is the low byte of the word, taken in place, and Types R, R1 and R0 have register operands only
(R67). -/
def Obligations.ImmediateIsTheLowByteInPlace : Prop :=
  ∀ (cfg : Config) (w : Word),
    (∀ op : OpMem, w.toNat / 4096 = codeMem op → ∃ ra imm rb, decode cfg w = .ok (asmMem op ra imm rb) ∧
      imm.toNat = w.toNat % 256) ∧
    (∀ op : OpBranch, w.toNat / 4096 = codeBranch op → ∃ ra imm rb, decode cfg w = .ok (asmBranch op ra imm rb) ∧
      imm.toNat = w.toNat % 256) ∧
    (∀ i, decode cfg w = .ok i → w.toNat / 4096 ≤ 7 →
      (∃ op d s t, i = asmR op d s t) ∨ (∃ op d s, i = asmR1 op d s) ∨ i = .hlt)

/-! ### The whole machine -/

/-- A step of a running machine whose word at `pc` decodes to a well-formed instruction is that instruction (00_scope.md
section 4, the step). -/
def Obligations.StepRunsTheDecodedInstruction : Prop :=
  ∀ (s : State) (w : Word) (i : Instr), s.halted = false → s.ifetch s.pc = some w → decode s.cfg w = .ok i →
    i.wellFormed s.cfg = true → step s = exec i s

/-- Once decoded, no instruction raises anything (60_exceptions.md section 1, causes). -/
def Obligations.EveryInstructionCompletes : Prop :=
  ∀ (i : Instr) (s : State), ∃ t, exec i s = .next t

/-- Exactly when a step faults, and with what record (60_exceptions.md section 1, model faults and priority; decisions
D8, D10, D18, log 8, log 10, log 18); it never refuses. -/
def Obligations.StepFaultsExactly : Prop :=
  ∀ s : State, (∀ r, step s ≠ .refused r) ∧
    (∀ f, step s = .fault f ↔
      (f = .halted ∧ s.halted = true) ∨
      (f = .fetchFault s.pc ∧ s.halted = false ∧ s.ifetch s.pc = none) ∨
      (∃ w, f = .illegalOpcode w ∧ s.halted = false ∧ s.ifetch s.pc = some w ∧ IllegalWord s.cfg w))

/-- Which instruction a change of each kind of state comes from (10_state.md sections 1, 2 and 4; 20_memory.md section 1;
that HLT leaves `pc` is decision D10, log 10, and that `pc + 1` wraps D6, log 6). -/
def Obligations.ChangesComeFromTheirInstructions : Prop :=
  ∀ (s t : State) (i : Instr), s.Executes i → step s = .next t →
    (¬ SameMem s t → ∃ ra imm rb, i = .st ra imm rb) ∧
    (¬ SameOut s t → ∃ ra, i = .out ra) ∧
    (¬ SameInput s t → ∃ ra, i = .inp ra) ∧
    (t.halted = true → i = .hlt) ∧
    (¬ PcNext s t → i = .hlt ∨ (∃ ra imm rb, i = .bz ra imm rb) ∨ (∃ ra imm rb, i = .bal ra imm rb)) ∧
    (¬ SameRegs s t → i ≠ .hlt ∧ (∀ ra imm rb, i ≠ .st ra imm rb) ∧ (∀ ra, i ≠ .out ra) ∧
      (∀ ra imm rb, i ≠ .bz ra imm rb))

/-- Every step keeps both memories in canonical form (20_memory.md sections 1 and 3; the form is the model's own, log 16). -/
def Obligations.StepKeepsMemoriesCanonical : Prop :=
  ∀ s t : State, s.Canonical → step s = .next t → t.Canonical

/-- The reset memories are canonical (the form is the model's own, log 16). -/
def Obligations.ResetMemoriesCanonical : Prop := State.reset.Canonical

/-- What a reset leaves (10_state.md section 5; 70_reset_and_hazards.md section 1; decision D11, log 11), for every setting,
image, data, answers and register contents; and that `State.reset` is such a launch under the default settings. -/
def Obligations.ResetLeaves : Prop :=
  (∀ (cfg : Config) (image data : Memory) (answers : List Word) (regs : RegFile),
    (State.launch cfg image data answers regs).pc = cfg.resetPc ∧
    (State.launch cfg image data answers regs).halted = false ∧
    (State.launch cfg image data answers regs).out = [] ∧
    (State.launch cfg image data answers regs).imem = image ∧
    (State.launch cfg image data answers regs).cfg = cfg) ∧
  (∃ regs, State.reset = State.launch Config.default [] [] [] regs) ∧ State.reset.pc = 0x0000#16

/-- Along a whole run, from any state: the settings and IMEM are constant, the output trace only grows, canonical memories
stay canonical, and a machine still running was never halted before (20_memory.md section 5, instruction-fetch coherence;
10_state.md section 4; decisions D9, D10, D19, log 9, log 10, log 19). -/
def Obligations.RunKeepsProgramAndGrowsOutput : Prop :=
  ∀ (k : Nat) (s t : State), Host.Core.run Sys2Proof.core k s = .next t →
    SameRun s t ∧ s.out <+: t.out ∧ s.inCount ≤ t.inCount ∧ (s.Canonical → t.Canonical) ∧
    (t.halted = false → s.halted = false)

/-- No software-visible hazard (R185): the next instruction runs in the state that the last one left, and is the one at the
`pc` it left (no delay slot, a taken branch's next instruction is the one at its target); a register that any instruction
left, a load among them, is read as left by the very next one; a stored word is loaded by the very next load. -/
def Obligations.NoSoftwareVisibleHazard : Prop :=
  (∀ (s t : State) (i j : Instr), s.Executes i → step s = .next t → t.Executes j →
    Host.Core.run Sys2Proof.core 2 s = exec j t) ∧
  (∀ (s : State) (ra rb : Reg) (imm : Imm8) (w : Word) (j : Instr), s.Executes (.bz ra imm rb) →
    (s.readReg ra).toNat = 0 → s.ifetch (branchTarget imm rb s) = some w → decode s.cfg w = .ok j →
    ∃ t, step s = .next t ∧ t.pc = branchTarget imm rb s ∧ step t = exec j t) ∧
  (∀ (i : Instr) (s t : State) (r rx : Reg), exec i s = .next t →
    ∃ u, exec (.and rx r r) t = .next u ∧ u.readReg rx = t.readReg r) ∧
  (∀ (s : State) (ra rb rc : Reg) (imm : Imm8), ∃ t u, exec (.st ra imm rb) s = .next t ∧
    exec (.ld rc imm rb) t = .next u ∧ u.readReg rc = s.readReg ra)
end

