-- ==== Sys2Proof/Laws/State.lean ====
section
/-! SUPPORT. What each update of the state does to each field: one lemma per field per update, so that no later proof
unfolds a record update. -/

namespace Sys2Proof.Machine

variable (s : State)

/-! ### `writeReg` -/

@[simp] theorem State.writeReg_regs (r : Reg) (v : Word) : (s.writeReg r v).regs = s.regs.set r v := rfl
@[simp] theorem State.writeReg_pc (r : Reg) (v : Word) : (s.writeReg r v).pc = s.pc := rfl
@[simp] theorem State.writeReg_imem (r : Reg) (v : Word) : (s.writeReg r v).imem = s.imem := rfl
@[simp] theorem State.writeReg_dmem (r : Reg) (v : Word) : (s.writeReg r v).dmem = s.dmem := rfl
@[simp] theorem State.writeReg_halted (r : Reg) (v : Word) : (s.writeReg r v).halted = s.halted := rfl
@[simp] theorem State.writeReg_out (r : Reg) (v : Word) : (s.writeReg r v).out = s.out := rfl
@[simp] theorem State.writeReg_input (r : Reg) (v : Word) : (s.writeReg r v).input = s.input := rfl
@[simp] theorem State.writeReg_inCount (r : Reg) (v : Word) : (s.writeReg r v).inCount = s.inCount := rfl
@[simp] theorem State.writeReg_cfg (r : Reg) (v : Word) : (s.writeReg r v).cfg = s.cfg := rfl

/-! ### `setPc` -/

@[simp] theorem State.setPc_regs (a : Word) : (s.setPc a).regs = s.regs := rfl
@[simp] theorem State.setPc_pc (a : Word) : (s.setPc a).pc = a := rfl
@[simp] theorem State.setPc_imem (a : Word) : (s.setPc a).imem = s.imem := rfl
@[simp] theorem State.setPc_dmem (a : Word) : (s.setPc a).dmem = s.dmem := rfl
@[simp] theorem State.setPc_halted (a : Word) : (s.setPc a).halted = s.halted := rfl
@[simp] theorem State.setPc_out (a : Word) : (s.setPc a).out = s.out := rfl
@[simp] theorem State.setPc_input (a : Word) : (s.setPc a).input = s.input := rfl
@[simp] theorem State.setPc_inCount (a : Word) : (s.setPc a).inCount = s.inCount := rfl
@[simp] theorem State.setPc_cfg (a : Word) : (s.setPc a).cfg = s.cfg := rfl

/-! ### `advance` -/

@[simp] theorem State.advance_regs : (s.advance).regs = s.regs := rfl
@[simp] theorem State.advance_pc : (s.advance).pc = s.pc + 1#16 := rfl
@[simp] theorem State.advance_imem : (s.advance).imem = s.imem := rfl
@[simp] theorem State.advance_dmem : (s.advance).dmem = s.dmem := rfl
@[simp] theorem State.advance_halted : (s.advance).halted = s.halted := rfl
@[simp] theorem State.advance_out : (s.advance).out = s.out := rfl
@[simp] theorem State.advance_input : (s.advance).input = s.input := rfl
@[simp] theorem State.advance_inCount : (s.advance).inCount = s.inCount := rfl
@[simp] theorem State.advance_cfg : (s.advance).cfg = s.cfg := rfl

/-! ### `finishWith` -/

@[simp] theorem State.finishWith_regs (r : Reg) (v : Word) : (s.finishWith r v).regs = s.regs.set r v := rfl
@[simp] theorem State.finishWith_pc (r : Reg) (v : Word) : (s.finishWith r v).pc = s.pc + 1#16 := rfl
@[simp] theorem State.finishWith_imem (r : Reg) (v : Word) : (s.finishWith r v).imem = s.imem := rfl
@[simp] theorem State.finishWith_dmem (r : Reg) (v : Word) : (s.finishWith r v).dmem = s.dmem := rfl
@[simp] theorem State.finishWith_halted (r : Reg) (v : Word) : (s.finishWith r v).halted = s.halted := rfl
@[simp] theorem State.finishWith_out (r : Reg) (v : Word) : (s.finishWith r v).out = s.out := rfl
@[simp] theorem State.finishWith_input (r : Reg) (v : Word) : (s.finishWith r v).input = s.input := rfl
@[simp] theorem State.finishWith_inCount (r : Reg) (v : Word) : (s.finishWith r v).inCount = s.inCount := rfl
@[simp] theorem State.finishWith_cfg (r : Reg) (v : Word) : (s.finishWith r v).cfg = s.cfg := rfl

/-! ### `memWrite` -/

@[simp] theorem State.memWrite_regs (a v : Word) : (s.memWrite a v).regs = s.regs := rfl
@[simp] theorem State.memWrite_pc (a v : Word) : (s.memWrite a v).pc = s.pc := rfl
@[simp] theorem State.memWrite_imem (a v : Word) : (s.memWrite a v).imem = s.imem := rfl
@[simp] theorem State.memWrite_dmem (a v : Word) : (s.memWrite a v).dmem = Memory.store s.dmem a.toNat v := rfl
@[simp] theorem State.memWrite_halted (a v : Word) : (s.memWrite a v).halted = s.halted := rfl
@[simp] theorem State.memWrite_out (a v : Word) : (s.memWrite a v).out = s.out := rfl
@[simp] theorem State.memWrite_input (a v : Word) : (s.memWrite a v).input = s.input := rfl
@[simp] theorem State.memWrite_inCount (a v : Word) : (s.memWrite a v).inCount = s.inCount := rfl
@[simp] theorem State.memWrite_cfg (a v : Word) : (s.memWrite a v).cfg = s.cfg := rfl

/-! ### `takeInput` -/

@[simp] theorem State.takeInput_regs : (s.takeInput).regs = s.regs := rfl
@[simp] theorem State.takeInput_pc : (s.takeInput).pc = s.pc := rfl
@[simp] theorem State.takeInput_imem : (s.takeInput).imem = s.imem := rfl
@[simp] theorem State.takeInput_dmem : (s.takeInput).dmem = s.dmem := rfl
@[simp] theorem State.takeInput_halted : (s.takeInput).halted = s.halted := rfl
@[simp] theorem State.takeInput_out : (s.takeInput).out = s.out := rfl
@[simp] theorem State.takeInput_input : (s.takeInput).input = s.input.tail := rfl
@[simp] theorem State.takeInput_inCount : (s.takeInput).inCount = s.inCount + 1 := rfl
@[simp] theorem State.takeInput_cfg : (s.takeInput).cfg = s.cfg := rfl

/-! ### `portOut` -/

@[simp] theorem State.portOut_regs (v : Word) : (s.portOut v).regs = s.regs := rfl
@[simp] theorem State.portOut_pc (v : Word) : (s.portOut v).pc = s.pc := rfl
@[simp] theorem State.portOut_imem (v : Word) : (s.portOut v).imem = s.imem := rfl
@[simp] theorem State.portOut_dmem (v : Word) : (s.portOut v).dmem = s.dmem := rfl
@[simp] theorem State.portOut_halted (v : Word) : (s.portOut v).halted = s.halted := rfl
@[simp] theorem State.portOut_out (v : Word) : (s.portOut v).out = s.out ++ [v] := rfl
@[simp] theorem State.portOut_input (v : Word) : (s.portOut v).input = s.input := rfl
@[simp] theorem State.portOut_inCount (v : Word) : (s.portOut v).inCount = s.inCount := rfl
@[simp] theorem State.portOut_cfg (v : Word) : (s.portOut v).cfg = s.cfg := rfl

/-! ### `halt` -/

@[simp] theorem State.halt_regs : (s.halt).regs = s.regs := rfl
@[simp] theorem State.halt_pc : (s.halt).pc = s.pc := rfl
@[simp] theorem State.halt_imem : (s.halt).imem = s.imem := rfl
@[simp] theorem State.halt_dmem : (s.halt).dmem = s.dmem := rfl
@[simp] theorem State.halt_halted : (s.halt).halted = true := rfl
@[simp] theorem State.halt_out : (s.halt).out = s.out := rfl
@[simp] theorem State.halt_input : (s.halt).input = s.input := rfl
@[simp] theorem State.halt_inCount : (s.halt).inCount = s.inCount := rfl
@[simp] theorem State.halt_cfg : (s.halt).cfg = s.cfg := rfl

/-! ### `placeWord` -/

@[simp] theorem State.placeWord_regs (w : Word) : (s.placeWord w).regs = s.regs := rfl
@[simp] theorem State.placeWord_pc (w : Word) : (s.placeWord w).pc = s.pc := rfl
@[simp] theorem State.placeWord_imem (w : Word) : (s.placeWord w).imem = Memory.store s.imem s.pc.toNat w := rfl
@[simp] theorem State.placeWord_dmem (w : Word) : (s.placeWord w).dmem = s.dmem := rfl
@[simp] theorem State.placeWord_halted (w : Word) : (s.placeWord w).halted = false := rfl
@[simp] theorem State.placeWord_out (w : Word) : (s.placeWord w).out = s.out := rfl
@[simp] theorem State.placeWord_input (w : Word) : (s.placeWord w).input = s.input := rfl
@[simp] theorem State.placeWord_inCount (w : Word) : (s.placeWord w).inCount = s.inCount := rfl
@[simp] theorem State.placeWord_cfg (w : Word) : (s.placeWord w).cfg = s.cfg := rfl

/-! ### `launch` and `reset` -/

variable (cfg : Config) (image data : Memory) (answers : List Word) (regs : RegFile)

@[simp] theorem State.launch_regs : (State.launch cfg image data answers regs).regs = regs := rfl
@[simp] theorem State.launch_pc : (State.launch cfg image data answers regs).pc = cfg.resetPc := rfl
@[simp] theorem State.launch_imem : (State.launch cfg image data answers regs).imem = image := rfl
@[simp] theorem State.launch_dmem : (State.launch cfg image data answers regs).dmem = data := rfl
@[simp] theorem State.launch_halted : (State.launch cfg image data answers regs).halted = false := rfl
@[simp] theorem State.launch_out : (State.launch cfg image data answers regs).out = [] := rfl
@[simp] theorem State.launch_input : (State.launch cfg image data answers regs).input = answers := rfl
@[simp] theorem State.launch_inCount : (State.launch cfg image data answers regs).inCount = 0 := rfl
@[simp] theorem State.launch_cfg : (State.launch cfg image data answers regs).cfg = cfg := rfl

/-- Reset is a launch under the default parameters, with nothing loaded. -/
theorem State.reset_eq_launch : State.reset = State.launch Config.default [] [] [] RegFile.zero := rfl

end Sys2Proof.Machine
end

