-- ==== Sys2Proof/Laws/Ops.lean ====
section
/-! SUPPORT. What each shared operation can do, said once: registers, memories, ports, operand forms. -/

namespace Sys2Proof.Machine

/-! ### Registers -/

/-- Reading after a write of the register file. -/
theorem RegFile.get_set (f : RegFile) (r r' : Reg) (v : Word) :
    (f.set r v).get r' = if r' = r then v else f.get r' := by
  cases r <;> cases r' <;> rfl

/-- A register reads as what was written to it, `$0` too (10_state.md R21). -/
@[simp] theorem State.readReg_writeReg_same (s : State) (r : Reg) (v : Word) :
    (s.writeReg r v).readReg r = v := by
  cases r <;> rfl

/-- A write leaves every other register alone. -/
theorem State.readReg_writeReg_of_ne (s : State) (r r' : Reg) (v : Word) (h : r' ≠ r) :
    (s.writeReg r v).readReg r' = s.readReg r' := by
  simp [State.readReg, RegFile.get_set, h]

/-- Two states with the same register file read the same. -/
theorem State.readReg_congr {s t : State} (h : t.regs = s.regs) (r : Reg) : t.readReg r = s.readReg r := by
  simp [State.readReg, h]

@[simp] theorem State.readReg_setPc (s : State) (a : Word) (r : Reg) : (s.setPc a).readReg r = s.readReg r := rfl

@[simp] theorem State.readReg_advance (s : State) (r : Reg) : s.advance.readReg r = s.readReg r := rfl

@[simp] theorem State.readReg_memWrite (s : State) (a v : Word) (r : Reg) :
    (s.memWrite a v).readReg r = s.readReg r := rfl

@[simp] theorem State.readReg_takeInput (s : State) (r : Reg) : s.takeInput.readReg r = s.readReg r := rfl

@[simp] theorem State.readReg_portOut (s : State) (v : Word) (r : Reg) : (s.portOut v).readReg r = s.readReg r := rfl

@[simp] theorem State.readReg_halt (s : State) (r : Reg) : s.halt.readReg r = s.readReg r := rfl

/-- The destination of `finishWith` holds the value. -/
@[simp] theorem State.readReg_finishWith_same (s : State) (r : Reg) (v : Word) : (s.finishWith r v).readReg r = v := by
  simp [State.finishWith]

/-- Every register but the destination of `finishWith` is unchanged. -/
theorem State.readReg_finishWith_of_ne (s : State) (r r' : Reg) (v : Word) (h : r' ≠ r) :
    (s.finishWith r v).readReg r' = s.readReg r' := by
  simp [State.finishWith, State.readReg_writeReg_of_ne s r r' v h]

/-! ### Memories -/

/-- A stored word is what is listed afterwards, and every other address is as it was. -/
theorem Memory.lookup_store (m : Memory) (a c : Nat) (v : Word) :
    Memory.lookup (Memory.store m a v) c = if c = a then some v else Memory.lookup m c := by
  induction m with
  | nil => simp [Memory.store, Memory.lookup]
  | cons cell rest ih =>
    obtain ⟨b, w⟩ := cell
    simp only [Memory.store]
    split
    · simp [Memory.lookup]
    · split
      · next h =>
        subst h
        simp only [Memory.lookup]
        split <;> rfl
      · next h =>
        simp only [Memory.lookup, ih]
        split
        · next hc => simp [hc, Ne.symm h]
        · rfl

/-- The rising form from a higher start is one from a lower start. -/
theorem Memory.wfFrom_mono (m : Memory) (lo lo' : Nat) (h : lo ≤ lo') (hm : Memory.wfFrom lo' m = true) :
    Memory.wfFrom lo m = true := by
  cases m with
  | nil => rfl
  | cons cell rest =>
    obtain ⟨b, w⟩ := cell
    simp only [Memory.wfFrom, Bool.and_eq_true, decide_eq_true_eq] at hm ⊢
    exact ⟨⟨by omega, hm.1.2⟩, hm.2⟩

/-- A store keeps the rising form. -/
theorem Memory.wfFrom_store (m : Memory) (lo a : Nat) (v : Word) (hlo : lo ≤ a) (ha : a < 65536)
    (hm : Memory.wfFrom lo m = true) : Memory.wfFrom lo (Memory.store m a v) = true := by
  induction m generalizing lo with
  | nil => simp [Memory.store, Memory.wfFrom, hlo, ha]
  | cons cell rest ih =>
    obtain ⟨b, w⟩ := cell
    simp only [Memory.wfFrom, Bool.and_eq_true, decide_eq_true_eq] at hm
    obtain ⟨⟨hb, hb'⟩, hrest⟩ := hm
    simp only [Memory.store]
    split
    · next h =>
      simp only [Memory.wfFrom, Bool.and_eq_true, decide_eq_true_eq]
      exact ⟨⟨hlo, ha⟩, ⟨by omega, hb'⟩, hrest⟩
    · next h =>
      split
      · next h' =>
        subst h'
        simp only [Memory.wfFrom, Bool.and_eq_true, decide_eq_true_eq]
        exact ⟨⟨hb, hb'⟩, hrest⟩
      · next h' =>
        simp only [Memory.wfFrom, Bool.and_eq_true, decide_eq_true_eq]
        exact ⟨⟨hb, hb'⟩, ih (b + 1) (by omega) hrest⟩

/-- A store at a word address keeps the canonical form: no memory operation of the model breaks it. -/
theorem Memory.wf_store (m : Memory) (a v : Word) (hm : Memory.wf m = true) :
    Memory.wf (Memory.store m a.toNat v) = true :=
  Memory.wfFrom_store m 0 a.toNat v (Nat.zero_le _) a.isLt hm

/-- The reset memories have the canonical form. -/
theorem Memory.wf_nil : Memory.wf [] = true := rfl

/-- A listed word reads as its value. -/
theorem State.memRead_of_listed (s : State) (a v : Word) (h : Memory.lookup s.dmem a.toNat = some v) :
    s.memRead a = v := by
  simp [State.memRead, h]

/-- An unlisted word reads as the free value of its address. -/
theorem State.memRead_of_unlisted (s : State) (a : Word) (h : Memory.lookup s.dmem a.toNat = none) :
    s.memRead a = Config.powerOnWord a := by
  simp [State.memRead, h]

/-- Two states with the same data memory load the same. -/
theorem State.memRead_congr {s t : State} (h : t.dmem = s.dmem) (a : Word) : t.memRead a = s.memRead a := by
  simp [State.memRead, h]

/-! ### Ports -/

/-- With answers listed, IN takes the first. -/
theorem State.portIn_of_listed (s : State) (v : Word) (vs : List Word) (h : s.input = v :: vs) : s.portIn = v := by
  simp [State.portIn, h]

/-- With none listed, IN takes the free value of its number. -/
theorem State.portIn_of_unlisted (s : State) (h : s.input = []) : s.portIn = Config.unstatedInput s.inCount := by
  simp [State.portIn, h]

/-! ### Operand forms -/

/-- Base `$0` is the constant 0; any other base is the stored register (20_memory.md R44). -/
theorem baseVal_eq (rb : Reg) (s : State) : baseVal rb s = if rb = .r0 then 0x0000#16 else s.readReg rb := by
  cases rb <;> rfl

/-- The base depends on the registers alone. -/
theorem baseVal_congr {s t : State} (h : t.regs = s.regs) (rb : Reg) : baseVal rb t = baseVal rb s := by
  simp [baseVal_eq, State.readReg_congr h]

/-- The effective address depends on the registers and the settings alone. -/
theorem effAddr_congr {s t : State} (h : t.regs = s.regs) (hc : t.cfg = s.cfg) (imm : Imm8) (rb : Reg) :
    effAddr imm rb t = effAddr imm rb s := by
  simp [effAddr, baseVal_congr h, hc]

/-- The extended immediate, read unsigned, under `zext` (30_encoding.md R68). -/
theorem imm16_zext (cfg : Config) (imm : Imm8) (h : cfg.immExt = .zext) : (imm16 cfg imm).toNat = imm.toNat := by
  have := imm.isLt
  simp only [imm16, h, BitVec.truncate_eq_setWidth, BitVec.toNat_setWidth]
  omega

/-- The extended immediate, read signed, in the default setting (30_encoding.md R68). -/
theorem imm16_sext (cfg : Config) (imm : Imm8) (h : cfg.immExt = .sext) : (imm16 cfg imm).toInt = imm.toInt := by
  simp only [imm16, h]
  exact BitVec.toInt_signExtend_of_le (by decide)

/-- The branch target in the two modes (45_type_i_branch.md R150, R154). -/
theorem branchTarget_pcRelative (imm : Imm8) (rb : Reg) (s : State) (h : s.cfg.branchMode = .pcRelative) :
    branchTarget imm rb s = s.pc + imm16 s.cfg imm := by
  simp [branchTarget, h]

/-- Under `base_plus_imm` the target is an effective address. -/
theorem branchTarget_basePlusImm (imm : Imm8) (rb : Reg) (s : State) (h : s.cfg.branchMode = .basePlusImm) :
    branchTarget imm rb s = effAddr imm rb s := by
  simp [branchTarget, h]

end Sys2Proof.Machine
end

