-- ==== Sys2Proof/Laws/PerInstr.lean ====
section
/-! SUPPORT. Families of statements made per instruction. `CanonicalWord`: the word of an instruction has the opcode bits
of its row of spec/opcode_table.json, and zeros in every bit that the row's format leaves unused. -/

namespace Sys2Proof.Laws

/-- The `match` of an instruction's row. -/
def rowMatch : Instr → Word
  | .add _ _ _ => 0x0000#16
  | .and _ _ _ => 0x1000#16
  | .sub _ _ _ => 0x2000#16
  | .slt _ _ _ => 0x3000#16
  | .not _ _ => 0x4000#16
  | .sr _ _ => 0x6000#16
  | .hlt => 0x7000#16
  | .ld _ _ _ => 0x8000#16
  | .st _ _ _ => 0x9000#16
  | .lda _ _ _ => 0xA000#16
  | .inp _ => 0xC000#16
  | .out _ => 0xD000#16
  | .bz _ _ _ => 0xE000#16
  | .bal _ _ _ => 0xF000#16

/-- The `strict_mask` of an instruction's row. -/
def rowStrictMask : Instr → Word
  | .add _ _ _ => 0xF03F#16
  | .and _ _ _ => 0xF03F#16
  | .sub _ _ _ => 0xF03F#16
  | .slt _ _ _ => 0xF03F#16
  | .not _ _ => 0xF33F#16
  | .sr _ _ => 0xF33F#16
  | .hlt => 0xFFFF#16
  | .ld _ _ _ => 0xF000#16
  | .st _ _ _ => 0xF000#16
  | .lda _ _ _ => 0xF000#16
  | .inp _ => 0xF000#16
  | .out _ => 0xF000#16
  | .bz _ _ _ => 0xF000#16
  | .bal _ _ _ => 0xF000#16

/-- Masking a Type I word to its opcode leaves the opcode. -/
theorem encodeI_opcode (op : BitVec 4) (ra rb : Reg) (imm : Imm8) :
    encodeI op ra rb imm &&& 0xF000#16 = fieldAt 12 op := by
  simp only [encodeI, fieldAt]
  generalize ra.bits = p
  generalize rb.bits = q
  apply BitVec.eq_of_getLsbD_eq
  intro i hi
  interval_cases i <;> simp

/-- The family's statement about one instruction. -/
def CanonicalWord.Statement (i : Instr) : Prop := encode i &&& rowStrictMask i = rowMatch i

theorem CanonicalWord.add (rd rs1 rs2 : Reg) : CanonicalWord.Statement (.add rd rs1 rs2) := by
  cases rd <;> cases rs1 <;> cases rs2 <;> rfl

theorem CanonicalWord.and (rd rs1 rs2 : Reg) : CanonicalWord.Statement (.and rd rs1 rs2) := by
  cases rd <;> cases rs1 <;> cases rs2 <;> rfl

theorem CanonicalWord.sub (rd rs1 rs2 : Reg) : CanonicalWord.Statement (.sub rd rs1 rs2) := by
  cases rd <;> cases rs1 <;> cases rs2 <;> rfl

theorem CanonicalWord.slt (rd rs1 rs2 : Reg) : CanonicalWord.Statement (.slt rd rs1 rs2) := by
  cases rd <;> cases rs1 <;> cases rs2 <;> rfl

theorem CanonicalWord.not (rd rs : Reg) : CanonicalWord.Statement (.not rd rs) := by
  cases rd <;> cases rs <;> rfl

theorem CanonicalWord.sr (rd rs : Reg) : CanonicalWord.Statement (.sr rd rs) := by
  cases rd <;> cases rs <;> rfl

theorem CanonicalWord.hlt : CanonicalWord.Statement .hlt := rfl

theorem CanonicalWord.ld (ra : Reg) (imm : Imm8) (rb : Reg) : CanonicalWord.Statement (.ld ra imm rb) :=
  encodeI_opcode 0x8#4 ra rb imm

theorem CanonicalWord.st (ra : Reg) (imm : Imm8) (rb : Reg) : CanonicalWord.Statement (.st ra imm rb) :=
  encodeI_opcode 0x9#4 ra rb imm

theorem CanonicalWord.lda (ra : Reg) (imm : Imm8) (rb : Reg) : CanonicalWord.Statement (.lda ra imm rb) :=
  encodeI_opcode 0xA#4 ra rb imm

theorem CanonicalWord.inp (ra : Reg) : CanonicalWord.Statement (.inp ra) :=
  encodeI_opcode 0xC#4 ra .r0 0x00#8

theorem CanonicalWord.out (ra : Reg) : CanonicalWord.Statement (.out ra) :=
  encodeI_opcode 0xD#4 ra .r0 0x00#8

theorem CanonicalWord.bz (ra : Reg) (imm : Imm8) (rb : Reg) : CanonicalWord.Statement (.bz ra imm rb) :=
  encodeI_opcode 0xE#4 ra rb imm

theorem CanonicalWord.bal (ra : Reg) (imm : Imm8) (rb : Reg) : CanonicalWord.Statement (.bal ra imm rb) :=
  encodeI_opcode 0xF#4 ra rb imm

end Sys2Proof.Laws
end

