-- ==== Sys2Proof/Laws/Step.lean ====
section
/-! SUPPORT. What a step can do, said once. -/

namespace Sys2Proof.Machine

/-- What `nextInstr` finds, case by case. -/
theorem nextInstr_cases (s : State) :
    (s.halted = true ∧ nextInstr s = .error .halted) ∨
    (s.halted = false ∧ s.ifetch s.pc = none ∧ nextInstr s = .error (.fetchFault s.pc)) ∨
    (∃ w e, s.halted = false ∧ s.ifetch s.pc = some w ∧ decode s.cfg w = .error e ∧
      nextInstr s = .error (.illegalOpcode w)) ∨
    (∃ i, s.Executes i ∧ nextInstr s = .ok i) := by
  unfold nextInstr State.Executes
  cases hh : s.halted with
  | true => simp
  | false =>
    cases hf : s.ifetch s.pc with
    | none => simp
    | some w =>
      cases hd : decode s.cfg w with
      | error e => simp [hd]
      | ok i => simp [hd]

/-- A step that answers a next state ran the instruction that the machine executes next. -/
theorem step_next {s t : State} (h : step s = .next t) : ∃ i, s.Executes i ∧ exec i s = .next t := by
  unfold step at h
  rcases nextInstr_cases s with ⟨_, hn⟩ | ⟨_, _, hn⟩ | ⟨_, _, _, _, _, hn⟩ | ⟨i, hi, hn⟩
  · simp [hn] at h
  · simp [hn] at h
  · simp [hn] at h
  · exact ⟨i, hi, by simpa [hn] using h⟩

/-- A run goes on after a step that answers a next state. -/
theorem core_run_next {s t : State} (k : Nat) (h : step s = .next t) :
    Host.Core.run Sys2Proof.core (k + 1) s = Host.Core.run Sys2Proof.core k t := by
  have h' : Sys2Proof.core.step s = .next t := h
  simp only [Host.Core.run, h']

/-- A run stops at a fault. -/
theorem core_run_fault {s : State} {f : Fault} (k : Nat) (h : step s = .fault f) :
    Host.Core.run Sys2Proof.core (k + 1) s = .fault f := by
  have h' : Sys2Proof.core.step s = .fault f := h
  simp only [Host.Core.run, h']

/-- A run stops at a refusal. -/
theorem core_run_refused {s : State} {r : Refusal} (k : Nat) (h : step s = .refused r) :
    Host.Core.run Sys2Proof.core (k + 1) s = .refused r := by
  have h' : Sys2Proof.core.step s = .refused r := h
  simp only [Host.Core.run, h']

/-- A run of no step. -/
theorem core_run_zero (s : State) : Host.Core.run Sys2Proof.core 0 s = .next s := rfl

end Sys2Proof.Machine
end

