-- ==== Sys2Proof/Tests/Slice0.lean ====
section
/-! SUPPORT. Tests on the words and values of 95_test_vectors.md (each names its vector), the smoke test of
well-formedness, and a witness for the hypotheses of every statement that has some. -/

namespace Sys2Proof.Tests

open Sys2Proof.Machine

/-! ### Helpers -/

/-- A running machine about to execute the word `w` at address `pc`. -/
def about (pc w : Word) (regs : RegFile) (cfg : Config := Config.default) (data : Memory := [])
    (answers : List Word := []) : State :=
  { State.launch cfg [(pc.toNat, w)] data answers regs with pc := pc }

/-- Four register values. -/
def rf (x0 x1 x2 x3 : Word) : RegFile where
  x0 := x0
  x1 := x1
  x2 := x2
  x3 := x3

/-- One step answers a next state in which `p` holds. -/
def ends (s : State) (p : State → Bool) : Bool :=
  match step s with
  | .next t => p t
  | .fault _ => false
  | .refused _ => false

/-- One step stops with the fault `f`. -/
def stops (s : State) (f : Fault) : Bool :=
  match step s with
  | .next _ => false
  | .fault g => g == f
  | .refused _ => false

/-- What an instruction answers is a next state in which `p` holds. -/
def gives (r : Result) (p : State → Bool) : Bool :=
  match r with
  | .next t => p t
  | .fault _ => false
  | .refused _ => false

def zext : Config := { Config.default with immExt := .zext }
def base : Config := { Config.default with branchMode := .basePlusImm }
def unsignedSlt : Config := { Config.default with sltSigned := false }
def signFill : Config := { Config.default with srFill := .sign }
def strict : Config := { Config.default with strictUnused := true }

/-! ### Well-formedness: its one check, on both constructors that have it -/

theorem test_wellFormed_refuses_bz_base : Instr.wellFormed Config.default (.bz .r1 0x04#8 .r3) = false := by decide

theorem test_wellFormed_refuses_bal_base : Instr.wellFormed Config.default (.bal .r3 0x00#8 .r3) = false := by decide

theorem test_wellFormed_base_plus_imm : Instr.wellFormed base (.bal .r3 0x00#8 .r3) = true := by decide

/-! ### Decoding: one word per constructor, written out from its encoding (95_test_vectors.md section 2) -/

theorem test_decode_typeR :
    decodeTableWord 16 0b0000101101000000 = some (.add .r1 .r2 .r3) ∧
    decodeTableWord 16 0b0001011011000000 = some (.and .r3 .r1 .r2) ∧
    decodeTableWord 16 0b0010011101000000 = some (.sub .r1 .r1 .r3) ∧
    decodeTableWord 16 0b0011011011000000 = some (.slt .r3 .r1 .r2) := by decide

theorem test_decode_typeR1_typeR0 :
    decodeTableWord 16 0b0100010010000000 = some (.not .r2 .r1) ∧
    decodeTableWord 16 0b0110010010000000 = some (.sr .r2 .r1) ∧
    decodeTableWord 16 0b0111000000000000 = some .hlt := by decide

theorem test_decode_memory :
    decodeTableWord 16 0b1000011100000010 = some (.ld .r1 0x02#8 .r3) ∧
    decodeTableWord 16 0b1001100000010000 = some (.st .r2 0x10#8 .r0) ∧
    decodeTableWord 16 0b1010010111111111 = some (.lda .r1 0xFF#8 .r1) := by decide

theorem test_decode_ports :
    decodeTableWord 16 0b1100010000000000 = some (.inp .r1) ∧
    decodeTableWord 16 0b1101100000000000 = some (.out .r2) := by decide

theorem test_decode_branches :
    decodeTableWord 16 0b1110010000000100 = some (.bz .r1 0x04#8 .r0) ∧
    decodeTableWord 16 0b1111000011111101 = some (.bal .r0 0xFD#8 .r0) := by decide

/-- The non-canonical words of section 2: ignored bits are ignored. -/
theorem test_decode_ignores :
    decodeTableWord 16 0x0B7F = some (.add .r1 .r2 .r3) ∧ decodeTableWord 16 0x4780 = some (.not .r2 .r1) ∧
    decodeTableWord 16 0x7ABC = some .hlt ∧ decodeTableWord 16 0xC7FF = some (.inp .r1) ∧
    decodeTableWord 16 0xDB21 = some (.out .r2) ∧ decodeTableWord 16 0xE704 = some (.bz .r1 0x04#8 .r0) := by decide

/-- The words of section 2 that are no instructions, and their accepted neighbours. -/
theorem test_decode_rejects :
    decodeTableWord 16 0x5000 = none ∧ decodeTableWord 16 0x5FFF = none ∧ decodeTableWord 16 0xB000 = none ∧
    decodeTableWord 16 0xBFFF = none ∧ decodeTableWord 16 0x4FFF = some (.not .r3 .r3) ∧
    decodeTableWord 16 0x6000 = some (.sr .r0 .r0) ∧ decodeTableWord 16 0xA000 = some (.lda .r0 0x00#8 .r0) := by decide

theorem test_decode_strict : decode strict 0x64BF#16 = .error (.unusedBitSet 0x64BF#16) := by rfl

theorem test_decode_base_field : decode base 0xE704#16 = .ok (.bz .r1 0x04#8 .r3) := by rfl

/-- The words of section 2, from their fields. -/
theorem test_encode :
    encode (.sub .r1 .r1 .r3) = 0x2740#16 ∧ encode (.sr .r2 .r1) = 0x6480#16 ∧ encode .hlt = 0x7000#16 ∧
    encode (.ld .r1 0x0A#8 .r0) = 0x840A#16 ∧ encode (.lda .r3 0x80#8 .r0) = 0xAC80#16 ∧
    encode (.inp .r1) = 0xC400#16 ∧ encode (.bal .r3 0x00#8 .r3) = 0xFF00#16 := by decide

/-! ### Type R and Type R1 (sections 3 and 4) -/

/-- ADD-2. -/
theorem test_add_wraps : ends (about 0x0010 0x0B40 (rf 0 0 0xFFFF 1))
    (fun t => t.readReg .r1 == 0x0000#16 && t.pc == 0x0011#16) = true := by decide

/-- ADD-6. -/
theorem test_add_zero_register : ends (about 0x0010 0x0000 (rf 3 0 0 0)) (fun t => t.readReg .r0 == 0x0006#16) = true := by
  decide

/-- AND-1. -/
theorem test_and : ends (about 0x0010 0x16C0 (rf 0 0x0FF0 0x3C3C 0)) (fun t => t.readReg .r3 == 0x0C30#16) = true := by
  decide

/-- SUB-2. -/
theorem test_sub_borrow : ends (about 0x0010 0x2740 (rf 0 0 0 1)) (fun t => t.readReg .r1 == 0xFFFF#16) = true := by decide

/-- SUB-6. -/
theorem test_sub_order : ends (about 0x0010 0x2940 (rf 0 3 0xA 0)) (fun t => t.readReg .r1 == 0x0007#16) = true := by decide

/-- SLT-4, signed. -/
theorem test_slt_signed : ends (about 0x0010 0x36C0 (rf 0 0x8000 0x7FFF 0)) (fun t => t.readReg .r3 == 0x0001#16) = true := by
  decide

/-- SLT-4, unsigned. -/
theorem test_slt_unsigned : ends (about 0x0010 0x36C0 (rf 0 0x8000 0x7FFF 5) unsignedSlt)
    (fun t => t.readReg .r3 == 0x0000#16) = true := by decide

/-- NOT-3. -/
theorem test_not : ends (about 0x0010 0x4480 (rf 0 0x00FF 0 0)) (fun t => t.readReg .r2 == 0xFF00#16) = true := by decide

/-- SR-5, zero fill. -/
theorem test_sr_zero_fill : ends (about 0x0010 0x6480 (rf 0 0xFFFF 0 0)) (fun t => t.readReg .r2 == 0x7FFF#16) = true := by
  decide

/-- SR-4, sign fill. -/
theorem test_sr_sign_fill : ends (about 0x0010 0x6480 (rf 0 0x8000 0 0) signFill)
    (fun t => t.readReg .r2 == 0xC000#16) = true := by decide

/-! ### HLT (section 5) -/

/-- HLT-1. -/
theorem test_hlt : ends (about 0x0008 0x7000 (rf 1 2 3 4))
    (fun t => t == { about 0x0008 0x7000 (rf 1 2 3 4) with halted := true }) = true := by decide

/-- HLT-3. -/
theorem test_halted_has_no_step : stops (about 0x0008 0x7000 (rf 1 2 3 4)).halt .halted = true := by decide

/-! ### LD, ST, LDA (section 6) -/

/-- MEM-1. -/
theorem test_ld_absolute :
    ends (about 0x0010 0x840A (rf 0x1111 0 0 0) Config.default [(0x000A, 0x1234#16), (0x111B, 0x9999#16)])
      (fun t => t.readReg .r1 == 0x1234#16 && t.pc == 0x0011#16) = true := by decide

/-- MEM-3. -/
theorem test_ld_address_wraps : ends (about 0x0010 0x8901 (rf 0 0xFFFF 0 0) Config.default [(0, 0x0042#16)])
    (fun t => t.readReg .r2 == 0x0042#16) = true := by decide

/-- MEM-8. -/
theorem test_st_zero_register : ends (about 0x0010 0x9005 (rf 0x7777 0 0 0) Config.default [(4, 1#16), (6, 2#16)])
    (fun t => t.dmem == [(4, 1#16), (5, 0x7777#16), (6, 2#16)]) = true := by decide

/-- MEM-10, in both settings. -/
theorem test_st_extension :
    ends (about 0x0010 0x98FF (rf 0 0 0x8010 0)) (fun t => t.dmem == [(0xFFFF, 0x8010#16)]) = true ∧
    ends (about 0x0010 0x98FF (rf 0 0 0x8010 0) zext) (fun t => t.dmem == [(0x00FF, 0x8010#16)]) = true := by decide

/-- MEM-12, in both settings. -/
theorem test_lda_extension :
    ends (about 0x0010 0xA5FF (rf 0 5 0 0)) (fun t => t.readReg .r1 == 0x0004#16) = true ∧
    ends (about 0x0010 0xA5FF (rf 0 5 0 0) zext) (fun t => t.readReg .r1 == 0x0104#16) = true := by decide

/-- MEM-17. -/
theorem test_lda_clears : ends (about 0x0010 0xA000 (rf 0x1234 0 0 0)) (fun t => t.readReg .r0 == 0x0000#16) = true := by
  decide

/-! ### IN, OUT (section 7) -/

/-- IO-1. -/
theorem test_in : ends (about 0x0010 0xC400 (rf 0 0 0 0) Config.default [] [0x002A, 0x0007])
    (fun t => t.readReg .r1 == 0x002A#16 && t.input == [0x0007#16] && t.out == []) = true := by decide

/-- An IN with no listed answer completes. -/
theorem test_in_never_blocks : ends (about 0x0010 0xC400 (rf 0 0 0 0)) (fun t => t.pc == 0x0011#16) = true := by decide

/-- IO-6. -/
theorem test_out : ends { about 0x0010 0xD000 (rf 7 0 0 0) with out := [1] } (fun t => t.out == [1#16, 7#16]) = true := by
  decide

/-! ### BZ, BAL (section 8) -/

/-- BZ-9, in both modes. -/
theorem test_bz_taken :
    ends (about 0x0003 0xE704 (rf 0 0 0 0x0100)) (fun t => t.pc == 0x0007#16) = true ∧
    ends (about 0x0003 0xE704 (rf 0 0 0 0x0100) base) (fun t => t.pc == 0x0104#16) = true := by decide

/-- BZ-3. -/
theorem test_bz_tests_all_bits : ends (about 0x0003 0xE404 (rf 0 0x8000 0 0)) (fun t => t.pc == 0x0004#16) = true := by
  decide

/-- BAL-5. -/
theorem test_bal_wraps : ends (about 0xFFFF 0xF47F (rf 0 9 0 0))
    (fun t => t.readReg .r1 == 0x0000#16 && t.pc == 0x007E#16) = true := by decide

/-- BAL-6, in both modes. -/
theorem test_bal_reads_base_first :
    ends (about 0x0006 0xFF00 (rf 0 0 0 2)) (fun t => t.readReg .r3 == 0x0007#16 && t.pc == 0x0006#16) = true ∧
    ends (about 0x0006 0xFF00 (rf 0 0 0 2) base)
      (fun t => t.readReg .r3 == 0x0007#16 && t.pc == 0x0002#16) = true := by decide

/-! ### Model faults (section 9), and a word placed after reset -/

/-- FLT-2 (its second step) and FLT-3. -/
theorem test_faults :
    stops { about 0x0000 0xA401 (rf 0 1 0 0) with pc := 0x0001 } (.fetchFault 0x0001) = true ∧
    stops (about 0x0000 0xB000 (rf 0 0 0 0)) (.illegalOpcode 0xB000) = true := by decide

theorem test_withFetchWord_after_reset :
    ends (State.reset.withFetchWord 16 0xA405) (fun t => t.readReg .r1 == 0x0005#16 && t.pc == 0x0001#16) = true := by decide

/-! ### Assembly lines (30_encoding.md R69, R75, R76) -/

theorem test_assemble :
    assemble Config.default 0x0006 (.branchLabel .bal .r0 0x0003) = some (.bal .r0 0xFD#8 .r0) ∧
    assemble Config.default 0x0006 (.branchLabel .bal .r0 0x0100) = none ∧
    assemble Config.default 0x0000 (.mem .lda .r1 200 .r0) = some (.lda .r1 0xC8#8 .r0) ∧
    assemble Config.default 0x0000 (.mem .ld .r1 256 .r0) = none := by decide

/-! ### Witnesses: states and operands that meet the hypotheses of the statements -/

theorem witness_SltWritesComparison :
    (about 0 0 (rf 0 0 0 0)).cfg.sltSigned = true ∧ (about 0 0 (rf 0 0 0 0) unsignedSlt).cfg.sltSigned = false := by decide

/-- `SltReadingsDifferOnSignBits`: a pair of words on each side of the equivalence. -/
theorem witness_SltReadings :
    lessThan Config.default 0xFFFF 0x0000 ≠ lessThan unsignedSlt 0xFFFF 0x0000 ∧
    lessThan Config.default 0x0003 0x0004 = lessThan unsignedSlt 0x0003 0x0004 := by decide

theorem witness_SrHalvesItsOperand :
    (about 0 0 (rf 0 0 0 0)).cfg.srFill = .zero ∧ (about 0 0 (rf 0 0 0 0) signFill).cfg.srFill = .sign := by decide

/-- `TypeRStepShape`: unchecked unused bits at their bounds, and checked ones that are zero. -/
theorem witness_TypeRStepShape :
    ((about 4 0x0B7F (rf 0 0 0 0)).halted = false ∧ (about 4 0x0B7F (rf 0 0 0 0)).cfg.strictUnused = false ∧
      (about 4 0x0B7F (rf 0 0 0 0)).ifetch 4 = some (wordOf5 (codeR .add) 2 3 1 63)) ∧
    ((about 4 0x0B40 (rf 0 0 0 0) strict).halted = false ∧ (about 4 0x0B40 (rf 0 0 0 0) strict).cfg.strictUnused = true ∧
      (about 4 0x0B40 (rf 0 0 0 0) strict).ifetch 4 = some (wordOf5 (codeR .add) 2 3 1 0)) := by decide

/-- `TypeR1StepShape`: unchecked unused bits at their bounds, and checked ones that are zero. -/
theorem witness_TypeR1StepShape :
    ((about 4 0x67BF (rf 0 0 0 0)).halted = false ∧ (about 4 0x67BF (rf 0 0 0 0)).cfg.strictUnused = false ∧
      (about 4 0x67BF (rf 0 0 0 0)).ifetch 4 = some (wordOf5 (codeR1 .sr) 1 3 2 63)) ∧
    ((about 4 0x6480 (rf 0 0 0 0) strict).halted = false ∧ (about 4 0x6480 (rf 0 0 0 0) strict).cfg.strictUnused = true ∧
      (about 4 0x6480 (rf 0 0 0 0) strict).ifetch 4 = some (wordOf5 (codeR1 .sr) 1 0 2 0)) := by decide

theorem witness_NotThenLdaOneNegates : (Reg.r1 ≠ .r0) := by decide

theorem witness_HaltEndsTheRun :
    (about 8 0x7000 (rf 0 0 0 0)).Executes .hlt ∧ (about 8 0x7000 (rf 0 0 0 0)).halt.halted = true :=
  ⟨⟨rfl, 0x7000#16, rfl, rfl⟩, rfl⟩

/-- `LdLoadsTheWord`: an address that the sum gives, at the wrap. -/
theorem witness_LdLoadsTheWord :
    (0x0000#16).toNat = (baseValue .r1 (about 0 0 (rf 0 0xFFFF 0 0)) + immValue Config.default 0x01#8) % 65536 := by decide

/-- `LoadSeesLatestStore`: two different addresses. -/
theorem witness_LoadSeesLatestStore :
    effAddr 0x00#8 .r0 (about 0 0 (rf 0 0 0 0)) ≠ effAddr 0xFF#8 .r0 (about 0 0 (rf 0 0 0 0)) := by decide

theorem witness_StoreOfPresentValueIsIdle :
    (about 0 0 (rf 0 0 0 0) Config.default [(65535, 7#16)]).Canonical ∧
    Memory.lookup (about 0 0 (rf 0 0 0 0) Config.default [(65535, 7#16)]).dmem (0xFFFF#16).toNat = some 7#16 :=
  ⟨⟨rfl, rfl⟩, rfl⟩

theorem witness_CanonicalMemories : Memory.wf [(0, 1#16), (65535, 2#16)] = true := by decide

/-- `BaseZeroIgnoresStoredRegister`: a base and a register that are not `$0`. -/
theorem witness_BaseZero : Reg.r3 ≠ .r0 ∧ baseVal .r3 (about 0 0 (rf 9 0 0 5)) = 0x0005#16 := by decide

/-- `AbsoluteFormReach`: the addresses where its clauses meet, in both settings. -/
theorem witness_AbsoluteFormReach :
    effAddr 0x7F#8 .r0 (about 0 0 (rf 9 0 0 0)) = 0x007F#16 ∧ effAddr 0x80#8 .r0 (about 0 0 (rf 9 0 0 0)) = 0xFF80#16 ∧
    effAddr 0xFF#8 .r0 (about 0 0 (rf 9 0 0 0) zext) = 0x00FF#16 := by decide

theorem witness_InTakesTheAnswer :
    (about 0 0 (rf 0 0 0 0) Config.default [] [5#16]).input = 5#16 :: [] ∧ (about 0 0 (rf 0 0 0 0)).input = [] := by decide

/-- `BzTestsAndBranches`, `BalLinksAndBranches`: the mode, with a zero and a non-zero register. -/
theorem witness_pcRelative :
    (about 0xFFFF 0xE404 (rf 0 0x8000 0 0)).cfg.branchMode = .pcRelative ∧
    ((about 0xFFFF 0xE404 (rf 0 0x8000 0 0)).readReg .r1).toNat ≠ 0 ∧
    ((about 0xFFFF 0xE404 (rf 0 0x8000 0 0)).readReg .r2).toNat = 0 := by decide

theorem witness_BranchesWithBasePlusImm : (about 0xFFFF 0xE704 (rf 0 0 0 9) base).cfg.branchMode = .basePlusImm := by decide

/-- `NoIndirectJumpWhenPcRelative`: two states whose registers differ but for their zeros. -/
theorem witness_NoIndirectJump :
    gives (exec (.bz .r1 0x04#8 .r2) (about 3 0 (rf 1 0 7 0))) (fun t => t.pc == 7#16) = true ∧
    gives (exec (.bz .r1 0x04#8 .r2) (about 3 0 (rf 5 0 9 0))) (fun t => t.pc == 7#16) = true ∧
    ∀ r, ((about 3 0 (rf 5 0 9 0)).readReg r).toNat = 0 ↔ ((about 3 0 (rf 1 0 7 0)).readReg r).toNat = 0 := by
  refine ⟨by decide, by decide, ?_⟩
  intro r
  cases r <;> decide

/-- `TypeRFieldLayout`, `TypeR1FieldLayout`, `TypeR0FieldLayout`: bounds of the unused bits, unchecked and checked. -/
theorem witness_FieldLayouts :
    Config.default.strictUnused = false ∧ strict.strictUnused = true ∧ wordOf5 3 3 3 3 63 = 0x3FFF#16 ∧
    wordOf5 6 3 3 3 63 = 0x6FFF#16 ∧ BitVec.ofNat 16 (7 * 4096 + 4095) = 0x7FFF#16 := by decide

/-- `DecodeEncodeRoundTrip`: a branch in each mode. -/
theorem witness_DecodeEncodeRoundTrip :
    Instr.wellFormed Config.default (.bz .r1 0xFF#8 .r0) = true ∧ Instr.wellFormed base (.bz .r1 0xFF#8 .r3) = true := by
  decide

/-- `EncodeOfDecodeIsCanonicalWord`: a word with every ignored bit set. -/
theorem witness_EncodeOfDecode : decode Config.default 0x0B7F#16 = .ok (.add .r1 .r2 .r3) := by rfl

/-- `WrittenImmediates`: the bounds of both spellings. -/
theorem witness_WrittenImmediates :
    immOfInt (-128) = some 0x80#8 ∧ immOfInt 127 = some 0x7F#8 ∧ immOfInt 128 = some 0x80#8 ∧
    immOfInt 255 = some 0xFF#8 := by decide

/-- `AcceptedLabelsLand`: a label at each bound of each form. -/
theorem witness_AcceptedLabelsLand :
    assemble Config.default 0x0100 (.branchLabel .bal .r1 0x0080) = some (.bal .r1 0x80#8 .r0) ∧
    assemble Config.default 0x0100 (.branchLabel .bal .r1 0x017F) = some (.bal .r1 0x7F#8 .r0) ∧
    assemble base 0x0100 (.branchLabel .bal .r1 0xFF80) = some (.bal .r1 0x80#8 .r0) ∧
    assemble Config.default 0x0100 (.memLabel .lda .r1 0x007F) = some (.lda .r1 0x7F#8 .r0) := by decide

/-- `StepRunsTheDecodedInstruction` and `ChangesComeFromTheirInstructions`. -/
theorem witness_StepRuns :
    (about 0x0010 0x9810 (rf 0 0 0xF 0)).Executes (.st .r2 0x10#8 .r0) ∧
    Instr.wellFormed Config.default (.st .r2 0x10#8 .r0) = true ∧
    (∃ t, step (about 0x0010 0x9810 (rf 0 0 0xF 0)) = .next t) ∧
    ends (about 0x0010 0x9810 (rf 0 0 0xF 0)) (fun t => t.memRead 0x0010 == 0x000F#16) = true :=
  ⟨⟨rfl, 0x9810#16, rfl, rfl⟩, rfl, ⟨_, rfl⟩, by decide⟩

/-- `StepKeepsMemoriesCanonical` and `RunKeepsProgramAndGrowsOutput`: a canonical state that steps. -/
theorem witness_StepKeeps :
    (about 0xFFFF 0x98FF (rf 0 0 0 0) Config.default [(0, 1#16)]).Canonical ∧
    (∃ t, step (about 0xFFFF 0x98FF (rf 0 0 0 0) Config.default [(0, 1#16)]) = .next t) ∧
    (∃ t, Host.Core.run Sys2Proof.core 1 (about 0xFFFF 0x98FF (rf 0 0 0 0) Config.default [(0, 1#16)]) = .next t) ∧
    ends (about 0xFFFF 0x98FF (rf 0 0 0 0) Config.default [(0, 1#16)]) (fun t => Memory.wf t.dmem) = true :=
  ⟨⟨rfl, rfl⟩, ⟨_, rfl⟩, ⟨_, rfl⟩, by decide⟩

/-- `ImmediateIsTheLowByteInPlace`: a word of each of its forms, with the immediate at a bound. -/
theorem witness_ImmediateInPlace :
    (0x87FF#16).toNat / 4096 = codeMem .ld ∧ (0xE480#16).toNat / 4096 = codeBranch .bz ∧
    decodeTableWord 16 0x7FFF = some .hlt ∧ (0x7FFF#16).toNat / 4096 ≤ 7 := by decide

/-- Two words: BZ to the word at 3, and a NOT there. -/
def bzThenNot : State := { State.launch Config.default [(0, 0xE403#16), (3, 0x4480#16)] [] [] (rf 0 0 0 0) with pc := 0 }

/-- `NoSoftwareVisibleHazard`: a step to a state that executes next, and a taken branch whose target decodes. -/
theorem witness_NoHazard :
    bzThenNot.Executes (.bz .r1 0x03#8 .r0) ∧ (bzThenNot.readReg .r1).toNat = 0 ∧
    bzThenNot.ifetch (branchTarget 0x03#8 .r0 bzThenNot) = some 0x4480#16 ∧
    decode bzThenNot.cfg 0x4480#16 = .ok (.not .r2 .r1) ∧
    ∃ t, step bzThenNot = .next t ∧ t.Executes (.not .r2 .r1) :=
  ⟨⟨rfl, 0xE403#16, rfl, rfl⟩, rfl, rfl, rfl, _, rfl, rfl, 0x4480#16, rfl, rfl⟩

end Sys2Proof.Tests
end

section
/-! PROOFS. The data memory's read-after-write rules, and the statement of 20_memory.md R46 they settle. -/

namespace Sys2Proof.Machine

/-- A load of the address just written gives the word written. -/
@[simp] theorem State.memRead_memWrite_same (s : State) (a v : Word) : (s.memWrite a v).memRead a = v := by
  apply State.memRead_of_listed
  simp [Memory.lookup_store]

/-- A write leaves every other address reading as before, whether its word is listed or free. -/
theorem State.memRead_memWrite_of_ne (s : State) (a b v : Word) (h : b ≠ a) :
    (s.memWrite a v).memRead b = s.memRead b := by
  have hlookup : Memory.lookup (s.memWrite a v).dmem b.toNat = Memory.lookup s.dmem b.toNat := by
    rw [State.memWrite_dmem, Memory.lookup_store, if_neg (BitVec.toNat_ne_iff_ne.mpr h)]
  simp only [State.memRead, hlookup]

/-- Settles O13: the two read-after-write rules of the data memory. -/
theorem accessMovesOneWord : Obligations.AccessMovesOneWord :=
  fun s a v => ⟨s.memRead_memWrite_same a v, fun b hb => s.memRead_memWrite_of_ne a b v hb⟩

end Sys2Proof.Machine
end

section
/-! PROOFS. What the decoder answers for a word of each opcode of Table R70, and the statement of 30_encoding.md R67 it
settles. -/

namespace Sys2Proof.Machine

/-! ### The fields as numbers -/

theorem opField_toNat (w : Word) : (opField w).toNat = w.toNat / 4096 := by
  simp only [opField, BitVec.extractLsb'_toNat, Nat.shiftRight_eq_div_pow]
  omega

/-- The immediate is the low byte, in place (R67). -/
theorem immField_toNat (w : Word) : (immField w).toNat = w.toNat % 256 := by
  simp [immField, BitVec.extractLsb'_toNat]

theorem opField_eq_ofNat {w : Word} {n : Nat} (h : w.toNat / 4096 = n) : opField w = BitVec.ofNat 4 n := by
  apply BitVec.eq_of_toNat_eq
  rw [opField_toNat, BitVec.toNat_ofNat]
  omega

/-! ### The table's rows, by format -/

theorem decodeOp_typeR (cfg : Config) {w : Word} {op : OpR} (h : w.toNat / 4096 = codeR op) :
    decodeOp cfg w = .ok (asmR op (regField7 w) (regField11 w) (regField9 w)) := by
  cases op <;> simp [decodeOp, opField_eq_ofNat h, codeR, asmR]

theorem decodeOp_typeR1 (cfg : Config) {w : Word} {op : OpR1} (h : w.toNat / 4096 = codeR1 op) :
    decodeOp cfg w = .ok (asmR1 op (regField7 w) (regField11 w)) := by
  cases op <;> simp [decodeOp, opField_eq_ofNat h, codeR1, asmR1]

theorem decodeOp_hlt (cfg : Config) {w : Word} (h : w.toNat / 4096 = 7) : decodeOp cfg w = .ok .hlt := by
  simp [decodeOp, opField_eq_ofNat h]

theorem decodeOp_mem (cfg : Config) {w : Word} {op : OpMem} (h : w.toNat / 4096 = codeMem op) :
    decodeOp cfg w = .ok (asmMem op (regField11 w) (immField w) (regField9 w)) := by
  cases op <;> simp [decodeOp, opField_eq_ofNat h, codeMem, asmMem]

theorem decodeOp_branch (cfg : Config) {w : Word} {op : OpBranch} (h : w.toNat / 4096 = codeBranch op) :
    decodeOp cfg w = .ok (asmBranch op (regField11 w) (immField w) (branchBaseField cfg w)) := by
  cases op <;> simp [decodeOp, opField_eq_ofNat h, codeBranch, asmBranch]

/-- Opcode `0x5` is no row of the table (R71). -/
theorem decodeOp_five (cfg : Config) {w : Word} (h : w.toNat / 4096 = 5) :
    decodeOp cfg w = .error (.unassignedOpcode 0x5#4) := by
  simp [decodeOp, opField_eq_ofNat h]

/-! ### The check of the unused bits (R66) -/

/-- Opcodes `0x8` and up have no unused bits. -/
theorem unusedMask_of_high {op : BitVec 4} (h : 8 ≤ op.toNat) : unusedMask op = 0x0000#16 := by
  revert op
  decide

/-- On an opcode from `0x8` up the check of the unused bits passes, whatever the setting. -/
theorem decode_of_high_opcode (cfg : Config) {w : Word} (h : 8 ≤ w.toNat / 4096) : decode cfg w = decodeOp cfg w := by
  have hmask : unusedMask (opField w) = 0x0000#16 := unusedMask_of_high (by rwa [opField_toNat])
  simp [decode, hmask]

/-- The check of the unused bits only rejects: a word that decodes, decodes by its row of the table. -/
theorem decodeOp_of_decode {cfg : Config} {w : Word} {i : Instr} (h : decode cfg w = .ok i) :
    decodeOp cfg w = .ok i := by
  unfold decode at h
  split at h
  · cases h
  · exact h

/-! ### The statement -/

/-- The opcodes up to 7: those of Types R and R1, the unassigned 5, and HLT (Table R70). -/
theorem low_opcode_cases {n : Nat} (h : n ≤ 7) :
    (∃ op, n = codeR op) ∨ (∃ op, n = codeR1 op) ∨ n = 5 ∨ n = 7 := by
  interval_cases n
  · exact .inl ⟨.add, rfl⟩
  · exact .inl ⟨.and, rfl⟩
  · exact .inl ⟨.sub, rfl⟩
  · exact .inl ⟨.slt, rfl⟩
  · exact .inr (.inl ⟨.not, rfl⟩)
  · exact .inr (.inr (.inl rfl))
  · exact .inr (.inl ⟨.sr, rfl⟩)
  · exact .inr (.inr (.inr rfl))

/-- A word of an opcode up to 7 that decodes has register operands only, or is HLT. -/
theorem decode_low_opcode {cfg : Config} {w : Word} {i : Instr} (h : decode cfg w = .ok i) (hlow : w.toNat / 4096 ≤ 7) :
    (∃ op d s t, i = asmR op d s t) ∨ (∃ op d s, i = asmR1 op d s) ∨ i = .hlt := by
  have hrow := decodeOp_of_decode h
  obtain ⟨op, hop⟩ | ⟨op, hop⟩ | hop | hop := low_opcode_cases hlow
  · rw [decodeOp_typeR cfg hop] at hrow
    cases hrow
    exact .inl ⟨op, _, _, _, rfl⟩
  · rw [decodeOp_typeR1 cfg hop] at hrow
    cases hrow
    exact .inr (.inl ⟨op, _, _, rfl⟩)
  · rw [decodeOp_five cfg hop] at hrow
    cases hrow
  · rw [decodeOp_hlt cfg hop] at hrow
    cases hrow
    exact .inr (.inr rfl)

/-- Settles O49: the memory and branch opcodes are all from `0x8` up, so their words decode by their rows, whose immediate
is the low byte; below `0x8` no row has an immediate. -/
theorem immediateIsTheLowByteInPlace : Obligations.ImmediateIsTheLowByteInPlace := by
  refine fun cfg w => ⟨fun op hop => ?mem, fun op hop => ?branch, fun _ => decode_low_opcode⟩
  case mem =>
    have hhigh : 8 ≤ w.toNat / 4096 := by cases op <;> simp [hop, codeMem]
    exact ⟨_, _, _, (decode_of_high_opcode cfg hhigh).trans (decodeOp_mem cfg hop), immField_toNat w⟩
  case branch =>
    have hhigh : 8 ≤ w.toNat / 4096 := by cases op <;> simp [hop, codeBranch]
    exact ⟨_, _, _, (decode_of_high_opcode cfg hhigh).trans (decodeOp_branch cfg hop), immField_toNat w⟩

end Sys2Proof.Machine
end

section
/-! PROOFS. A step is the instruction at `pc`, a taken BZ goes to its target, a load sees the store before it, and the
statement of 70_reset_and_hazards.md R185 they settle. -/

namespace Sys2Proof.Machine

/-! ### A step and a run of one step -/

/-- The machine runs the instruction it executes next. -/
theorem State.Executes.step_eq {s : State} {i : Instr} (h : s.Executes i) : step s = exec i s := by
  obtain ⟨hrun, w, hfetch, hdecode⟩ := h
  simp [step, nextInstr, hrun, hfetch, hdecode]

theorem core_run_one (s : State) : Host.Core.run Sys2Proof.core 1 s = step s := by
  cases h : step s with
  | next t => exact core_run_next 0 h
  | fault f => exact core_run_fault 0 h
  | refused r => exact core_run_refused 0 h

/-! ### The instructions the statement names -/

theorem exec_and (rd rs1 rs2 : Reg) (s : State) :
    exec (.and rd rs1 rs2) s = .next (s.finishWith rd (s.readReg rs1 &&& s.readReg rs2)) := rfl

theorem exec_ld (ra rb : Reg) (imm : Imm8) (s : State) :
    exec (.ld ra imm rb) s = .next (s.finishWith ra (s.memRead (effAddr imm rb s))) := rfl

theorem exec_st (ra rb : Reg) (imm : Imm8) (s : State) :
    exec (.st ra imm rb) s = .next (s.memWrite (effAddr imm rb s) (s.readReg ra)).advance := rfl

/-- A BZ whose register is zero goes to its target and changes nothing else (R151). -/
theorem exec_bz_taken {ra : Reg} {s : State} (h : (s.readReg ra).toNat = 0) (imm : Imm8) (rb : Reg) :
    exec (.bz ra imm rb) s = .next (s.setPc (branchTarget imm rb s)) := by
  have hzero : s.readReg ra = 0x0000#16 := BitVec.eq_of_toNat_eq h
  simp [exec, execBz, isZero, hzero]

/-- Advancing `pc` leaves the data memory as it was. -/
@[simp] theorem State.memRead_advance (s : State) (a : Word) : s.advance.memRead a = s.memRead a := rfl

/-! ### The statement -/

/-- No delay slot: two steps are the second instruction in the state the first one left. -/
theorem run_two_of_executes {s t : State} {j : Instr} (hstep : step s = .next t) (hj : t.Executes j) :
    Host.Core.run Sys2Proof.core 2 s = exec j t :=
  (core_run_next 1 hstep).trans ((core_run_one t).trans hj.step_eq)

/-- After a taken BZ the machine executes the instruction at the target, which the branch itself did not change. -/
theorem executes_at_bz_target {s : State} {rb : Reg} {imm : Imm8} {w : Word} {j : Instr} (hrun : s.halted = false)
    (hfetch : s.ifetch (branchTarget imm rb s) = some w) (hdecode : decode s.cfg w = .ok j) :
    (s.setPc (branchTarget imm rb s)).Executes j :=
  ⟨hrun, w, hfetch, hdecode⟩

/-- AND of a register with itself copies it. -/
theorem exec_and_self (rx r : Reg) (t : State) :
    exec (.and rx r r) t = .next (t.finishWith rx (t.readReg r)) := by
  rw [exec_and, BitVec.and_self]

/-- An LD right after an ST with the same operand forms the same address, so it loads the word just stored. -/
theorem exec_ld_after_st (s : State) (ra rb rc : Reg) (imm : Imm8) :
    exec (.ld rc imm rb) (s.memWrite (effAddr imm rb s) (s.readReg ra)).advance =
      .next ((s.memWrite (effAddr imm rb s) (s.readReg ra)).advance.finishWith rc (s.readReg ra)) := by
  have haddr : effAddr imm rb (s.memWrite (effAddr imm rb s) (s.readReg ra)).advance = effAddr imm rb s :=
    effAddr_congr rfl rfl imm rb
  rw [exec_ld, haddr, State.memRead_advance, State.memRead_memWrite_same]

/-- Settles O50: a step leaves one state, and the next instruction is fetched from it and reads from it. -/
theorem noSoftwareVisibleHazard : Obligations.NoSoftwareVisibleHazard := by
  refine ⟨fun s t i j _ hstep hj => run_two_of_executes hstep hj, ?bz, ?register, ?word⟩
  case bz =>
    intro s ra rb imm w j hbz hzero hfetch hdecode
    exact ⟨_, hbz.step_eq.trans (exec_bz_taken hzero imm rb), rfl,
      (executes_at_bz_target hbz.1 hfetch hdecode).step_eq⟩
  case register =>
    exact fun i s t r rx _ => ⟨_, exec_and_self rx r t, t.readReg_finishWith_same rx _⟩
  case word =>
    exact fun s ra rb rc imm => ⟨_, _, exec_st ra rb imm s, exec_ld_after_st s ra rb rc imm,
      State.readReg_finishWith_same _ rc _⟩

end Sys2Proof.Machine
end

section
/-! PROOFS. What each instruction answers and what it can do to the state, said once, and the statements about steps and
whole runs that follow from it. -/

namespace Sys2Proof.Machine

/-! ### The answer of each instruction -/

theorem exec_add (rd rs1 rs2 : Reg) (s : State) :
    exec (.add rd rs1 rs2) s = .next (s.finishWith rd (s.readReg rs1 + s.readReg rs2)) := rfl

theorem exec_sub (rd rs1 rs2 : Reg) (s : State) :
    exec (.sub rd rs1 rs2) s = .next (s.finishWith rd (s.readReg rs1 - s.readReg rs2)) := rfl

theorem exec_slt (rd rs1 rs2 : Reg) (s : State) :
    exec (.slt rd rs1 rs2) s = .next (s.finishWith rd
      (if lessThan s.cfg (s.readReg rs1) (s.readReg rs2) then 0x0001#16 else 0x0000#16)) := rfl

theorem exec_not (rd rs : Reg) (s : State) :
    exec (.not rd rs) s = .next (s.finishWith rd (~~~ (s.readReg rs))) := rfl

theorem exec_sr (rd rs : Reg) (s : State) :
    exec (.sr rd rs) s = .next (s.finishWith rd (shiftRightOne s.cfg (s.readReg rs))) := rfl

theorem exec_hlt (s : State) : exec .hlt s = .next s.halt := rfl

theorem exec_lda (ra rb : Reg) (imm : Imm8) (s : State) :
    exec (.lda ra imm rb) s = .next (s.finishWith ra (effAddr imm rb s)) := rfl

theorem exec_inp (ra : Reg) (s : State) :
    exec (.inp ra) s = .next (s.takeInput.finishWith ra s.portIn) := rfl

theorem exec_out (ra : Reg) (s : State) :
    exec (.out ra) s = .next (s.portOut (s.readReg ra)).advance := rfl

theorem exec_bal (ra rb : Reg) (imm : Imm8) (s : State) :
    exec (.bal ra imm rb) s = .next ((s.writeReg ra (s.pc + 1#16)).setPc (branchTarget imm rb s)) := rfl

/-- A BZ whose register is not zero goes on (R151). -/
theorem exec_bz_untaken {ra : Reg} {s : State} (h : (s.readReg ra).toNat ≠ 0) (imm : Imm8) (rb : Reg) :
    exec (.bz ra imm rb) s = .next s.advance := by
  have hzero : s.readReg ra ≠ 0x0000#16 := fun hz => h (by simp [hz])
  simp [exec, execBz, isZero, hzero]

theorem exec_bz (ra rb : Reg) (imm : Imm8) (s : State) :
    exec (.bz ra imm rb) s =
      .next (if (s.readReg ra).toNat = 0 then s.setPc (branchTarget imm rb s) else s.advance) := by
  split
  · next hzero => exact exec_bz_taken hzero imm rb
  · next hne => exact exec_bz_untaken hne imm rb

/-- Settles O42: each arm of `exec` answers a next state. -/
theorem everyInstructionCompletes : Obligations.EveryInstructionCompletes := by
  intro i s
  cases i <;> exact ⟨_, rfl⟩

/-! ### What an instruction can do -/

/-- The instructions that write one register, go on to `pc + 1` and do nothing else. -/
def Computes : Instr → Bool
  | .hlt | .st _ _ _ | .inp _ | .out _ | .bz _ _ _ | .bal _ _ _ => false
  | _ => true

/-- The state an instruction leaves: one case for all the instructions of `Computes`, one for each other. -/
inductive Effect (s : State) : Instr → State → Prop where
  | compute {i : Instr} (hi : Computes i = true) (rd : Reg) (v : Word) : Effect s i (s.finishWith rd v)
  | hlt : Effect s .hlt s.halt
  | st (ra : Reg) (imm : Imm8) (rb : Reg) (a v : Word) : Effect s (.st ra imm rb) (s.memWrite a v).advance
  | inp (ra : Reg) (v : Word) : Effect s (.inp ra) (s.takeInput.finishWith ra v)
  | out (ra : Reg) (v : Word) : Effect s (.out ra) (s.portOut v).advance
  | bz (ra : Reg) (imm : Imm8) (rb : Reg) (a : Word) : Effect s (.bz ra imm rb) (s.setPc a)
  | bal (ra : Reg) (imm : Imm8) (rb : Reg) (v a : Word) : Effect s (.bal ra imm rb) ((s.writeReg ra v).setPc a)

/-- `exec` does nothing but the effects listed. -/
theorem exec_effect {i : Instr} {s t : State} (h : exec i s = .next t) : Effect s i t := by
  cases i with
  | hlt => cases h; exact .hlt
  | st ra imm rb => cases h; exact .st ra imm rb _ _
  | inp ra => cases h; exact .inp ra _
  | out ra => cases h; exact .out ra _
  | bz ra imm rb =>
    rw [exec_bz] at h
    cases h
    split
    · exact .bz ra imm rb _
    · exact .bz ra imm rb _
  | bal ra imm rb => cases h; exact .bal ra imm rb _ _
  | _ => cases h; exact .compute rfl _ _

/-- A step has the effect of the instruction it ran. -/
theorem step_effect {s t : State} (h : step s = .next t) : ∃ i, Effect s i t := by
  obtain ⟨i, _, hexec⟩ := step_next h
  exact ⟨i, exec_effect hexec⟩

/-! ### What every step keeps -/

/-- What holds between a state and any later one of its run. -/
structure Evolves (s t : State) : Prop where
  run : SameRun s t
  out : s.out <+: t.out
  inCount : s.inCount ≤ t.inCount
  canonical : s.Canonical → t.Canonical
  running : t.halted = false → s.halted = false

theorem Evolves.refl (s : State) : Evolves s s where
  run := ⟨rfl, rfl⟩
  out := ⟨[], List.append_nil _⟩
  inCount := Nat.le_refl _
  canonical := id
  running := id

theorem Evolves.trans {s t u : State} (h : Evolves s t) (h' : Evolves t u) : Evolves s u where
  run := ⟨h'.run.1.trans h.run.1, h'.run.2.trans h.run.2⟩
  out := h.out.trans h'.out
  inCount := h.inCount.trans h'.inCount
  canonical := h'.canonical ∘ h.canonical
  running := h.running ∘ h'.running

/-- A change of registers, `pc` or input position alone, a store and an output each keep what a run keeps; only the
store touches a memory, and it keeps the canonical form. -/
theorem Effect.evolves {i : Instr} {s t : State} (h : Effect s i t) : Evolves s t := by
  cases h with
  | compute => exact { Evolves.refl s with }
  | hlt => exact { Evolves.refl s with running := fun h => nomatch h }
  | st ra imm rb a v =>
    exact { Evolves.refl s with canonical := fun ⟨himem, hdmem⟩ => ⟨himem, Memory.wf_store s.dmem a v hdmem⟩ }
  | inp => exact { Evolves.refl s with inCount := Nat.le_succ _ }
  | out ra v => exact { Evolves.refl s with out := ⟨[v], rfl⟩ }
  | bz => exact { Evolves.refl s with }
  | bal => exact { Evolves.refl s with }

theorem step_evolves {s t : State} (h : step s = .next t) : Evolves s t := by
  obtain ⟨_, heffect⟩ := step_effect h
  exact heffect.evolves

theorem core_run_evolves {k : Nat} {s t : State} (h : Host.Core.run Sys2Proof.core k s = .next t) : Evolves s t := by
  induction k generalizing s with
  | zero => cases h; exact .refl _
  | succ k ih =>
    cases hstep : step s with
    | next u => exact (step_evolves hstep).trans (ih (core_run_next k hstep ▸ h))
    | fault f => cases (core_run_fault k hstep).symm.trans h
    | refused r => cases (core_run_refused k hstep).symm.trans h

/-- Settles O45: a store is the only effect on a memory, and it keeps the canonical form. -/
theorem stepKeepsMemoriesCanonical : Obligations.StepKeepsMemoriesCanonical :=
  fun _ _ hcanonical hstep => (step_evolves hstep).canonical hcanonical

/-- Settles O48, by induction on the number of steps. -/
theorem runKeepsProgramAndGrowsOutput : Obligations.RunKeepsProgramAndGrowsOutput := by
  intro k s t hrun
  have h := core_run_evolves hrun
  exact ⟨h.run, h.out, h.inCount, h.canonical, h.running⟩

/-- Settles O46: an empty list is canonical. -/
theorem resetMemoriesCanonical : Obligations.ResetMemoriesCanonical := ⟨Memory.wf_nil, Memory.wf_nil⟩

/-- Settles O47, by the field lemmas of `State.launch`. -/
theorem resetLeaves : Obligations.ResetLeaves := by
  refine ⟨fun cfg image data answers regs => ?_, ⟨RegFile.zero, State.reset_eq_launch⟩, ?_⟩
  · simp
  · simp [State.reset_eq_launch, Config.default]

/-! ### Which instruction a change comes from -/

/-- `pc + 1` as a number (R25, R26). -/
theorem pcNext_of_pc_eq {s t : State} (h : t.pc = s.pc + 1#16) : PcNext s t := by
  rw [PcNext, h]
  exact BitVec.toNat_add s.pc 1#16

section
variable {i : Instr} {s t : State}

theorem Effect.sameMem_or_st (h : Effect s i t) : SameMem s t ∨ ∃ ra imm rb, i = .st ra imm rb := by
  cases h with
  | st ra imm rb => exact .inr ⟨ra, imm, rb, rfl⟩
  | _ => exact .inl fun _ => rfl

theorem Effect.sameOut_or_out (h : Effect s i t) : SameOut s t ∨ ∃ ra, i = .out ra := by
  cases h with
  | out ra => exact .inr ⟨ra, rfl⟩
  | _ => exact .inl rfl

theorem Effect.sameInput_or_inp (h : Effect s i t) : SameInput s t ∨ ∃ ra, i = .inp ra := by
  cases h with
  | inp ra => exact .inr ⟨ra, rfl⟩
  | _ => exact .inl ⟨rfl, rfl⟩

theorem Effect.halted_or_hlt (h : Effect s i t) : t.halted = s.halted ∨ i = .hlt := by
  cases h with
  | hlt => exact .inr rfl
  | _ => exact .inl rfl

theorem Effect.pcNext_or_jump (h : Effect s i t) :
    PcNext s t ∨ i = .hlt ∨ (∃ ra imm rb, i = .bz ra imm rb) ∨ (∃ ra imm rb, i = .bal ra imm rb) := by
  cases h with
  | hlt => exact .inr (.inl rfl)
  | bz ra imm rb => exact .inr (.inr (.inl ⟨ra, imm, rb, rfl⟩))
  | bal ra imm rb => exact .inr (.inr (.inr ⟨ra, imm, rb, rfl⟩))
  | _ => exact .inl (pcNext_of_pc_eq rfl)

/-- HLT, ST, OUT and BZ change no register. -/
theorem Effect.sameRegs_or (h : Effect s i t) :
    SameRegs s t ∨ (i ≠ .hlt ∧ (∀ ra imm rb, i ≠ .st ra imm rb) ∧ (∀ ra, i ≠ .out ra) ∧
      (∀ ra imm rb, i ≠ .bz ra imm rb)) := by
  cases h with
  | compute hi =>
    refine .inr ⟨?_, fun _ _ _ => ?_, fun _ => ?_, fun _ _ _ => ?_⟩ <;> (rintro rfl; cases hi)
  | inp | bal => exact .inr (by simp)
  | _ => exact .inl fun _ => rfl

end

/-- Settles O44: of the effects, each changes its own kind of state only. -/
theorem changesComeFromTheirInstructions : Obligations.ChangesComeFromTheirInstructions := by
  intro s t i hexecutes hstep
  have hrunning : s.halted = false := hexecutes.1
  have heffect : Effect s i t := exec_effect (hexecutes.step_eq ▸ hstep)
  refine ⟨heffect.sameMem_or_st.resolve_left, heffect.sameOut_or_out.resolve_left,
    heffect.sameInput_or_inp.resolve_left, fun hhalted => heffect.halted_or_hlt.resolve_left ?_,
    heffect.pcNext_or_jump.resolve_left, heffect.sameRegs_or.resolve_left⟩
  simp [hhalted, hrunning]

/-! ### HLT and the end of a run -/

/-- A halted machine has no step (R121). -/
theorem step_of_halted {s : State} (h : s.halted = true) : step s = .fault .halted := by
  simp [step, nextInstr, h]

theorem core_run_of_halted {s : State} (h : s.halted = true) (k : Nat) :
    Host.Core.run Sys2Proof.core (k + 1) s = .fault .halted :=
  core_run_fault k (step_of_halted h)

/-- Settles O11. -/
theorem hltStopsInPlace : Obligations.HltStopsInPlace :=
  fun s => ⟨s.halt, exec_hlt s, rfl, rfl, fun _ => rfl, fun _ => rfl, ⟨rfl, rfl⟩, rfl, ⟨rfl, rfl⟩⟩

/-- Settles O12: HLT leaves a halted state, and a halted state has no step. -/
theorem haltEndsTheRun : Obligations.HaltEndsTheRun := by
  refine ⟨fun k s hhalted => core_run_of_halted hhalted k, fun k s hexecutes => ?_⟩
  have hstep : step s = .next s.halt := hexecutes.step_eq.trans (exec_hlt s)
  exact ⟨⟨s.halt, (core_run_one s).trans hstep, rfl⟩,
    (core_run_next (k + 1) hstep).trans (core_run_of_halted rfl k)⟩

/-- Settles O41. -/
theorem stepRunsTheDecodedInstruction : Obligations.StepRunsTheDecodedInstruction :=
  fun _ w _ hrunning hfetch hdecode _ => State.Executes.step_eq ⟨hrunning, w, hfetch, hdecode⟩

end Sys2Proof.Machine
end

section
/-! PROOFS. The fields of a word as numbers, when the decoder accepts a word and what it then answers, and the statements
of 30_encoding.md section 2 on the formats. -/

namespace Sys2Proof.Machine

/-! ### Registers and their numbers -/

theorem regNumber_lt (r : Reg) : regNumber r < 4 := by cases r <;> decide

theorem toNat_bits (r : Reg) : r.bits.toNat = regNumber r := by cases r <;> rfl

theorem regNumber_ofBits (b : BitVec 2) : regNumber (Reg.ofBits b) = b.toNat := by
  revert b
  decide

theorem bits_ofBits (b : BitVec 2) : (Reg.ofBits b).bits = b :=
  BitVec.eq_of_toNat_eq (by rw [toNat_bits, regNumber_ofBits])

theorem regNumber_injective : Function.Injective regNumber := by
  intro a b
  cases a <;> cases b <;> decide

/-- A two-bit field selects the register whose number it holds. -/
theorem ofBits_extractLsb'_eq {w : Word} {lo : Nat} {r : Reg} (h : w.toNat / 2 ^ lo % 4 = regNumber r) :
    Reg.ofBits (w.extractLsb' lo 2) = r := by
  apply regNumber_injective
  rw [regNumber_ofBits, BitVec.extractLsb'_toNat, Nat.shiftRight_eq_div_pow]
  exact h

theorem immField_eq {w : Word} {imm : Imm8} (h : w.toNat % 256 = imm.toNat) : immField w = imm :=
  BitVec.eq_of_toNat_eq ((immField_toNat w).trans h)

/-! ### Fields in place -/

theorem fieldAt_toNat {n lo : Nat} (b : BitVec n) (h : n + lo ≤ 16) : (fieldAt lo b).toNat = b.toNat * 2 ^ lo := by
  have hn : b.toNat < 2 ^ 16 := b.isLt.trans_le (Nat.pow_le_pow_right (by decide) (by omega))
  have hb : b.toNat * 2 ^ lo < 2 ^ 16 :=
    calc b.toNat * 2 ^ lo < 2 ^ n * 2 ^ lo := Nat.mul_lt_mul_of_pos_right b.isLt (Nat.two_pow_pos lo)
      _ = 2 ^ (n + lo) := (Nat.pow_add 2 n lo).symm
      _ ≤ 2 ^ 16 := Nat.pow_le_pow_right (by decide) h
  simp only [fieldAt, BitVec.toNat_shiftLeft, BitVec.toNat_setWidth, Nat.shiftLeft_eq, Nat.mod_eq_of_lt hn,
    Nat.mod_eq_of_lt hb]

/-- The `n` bits of a word from bit `lo` on. -/
def fieldMask (lo n : Nat) : Word := fieldAt lo (BitVec.allOnes n)

/-- Taking a field out and putting it back clears every other bit. -/
theorem fieldAt_extractLsb' (w : Word) (lo n : Nat) : fieldAt lo (w.extractLsb' lo n) = w &&& fieldMask lo n := by
  apply BitVec.eq_of_getLsbD_eq
  intro i hi
  simp only [fieldAt, fieldMask, BitVec.getLsbD_shiftLeft, BitVec.getLsbD_setWidth, BitVec.getLsbD_extractLsb',
    BitVec.getLsbD_and, BitVec.getLsbD_allOnes]
  by_cases hlo : i < lo
  · simp [hlo]
  · have hsum : lo + (i - lo) = i := by omega
    simp [hlo, hsum, hi, Bool.and_comm, Bool.and_left_comm, Bool.and_assoc]

/-- The masked bits are clear exactly when the field is zero. -/
theorem and_fieldMask_eq_zero_iff (w : Word) {lo n : Nat} (h : n + lo ≤ 16) :
    w &&& fieldMask lo n = 0x0000#16 ↔ w.toNat / 2 ^ lo % 2 ^ n = 0 := by
  rw [← fieldAt_extractLsb', ← BitVec.toNat_inj, fieldAt_toNat _ h, BitVec.extractLsb'_toNat,
    Nat.shiftRight_eq_div_pow]
  simp

/-! ### The rows of the table -/

theorem codeR_le (op : OpR) : codeR op ≤ 3 := by cases op <;> decide

theorem codeR1_cases (op : OpR1) : codeR1 op = 4 ∨ codeR1 op = 6 := by cases op <;> decide

theorem codeMem_bounds (op : OpMem) : 8 ≤ codeMem op ∧ codeMem op ≤ 10 := by cases op <;> decide

theorem codeBranch_bounds (op : OpBranch) : 14 ≤ codeBranch op ∧ codeBranch op ≤ 15 := by cases op <;> decide

theorem decodeOp_inp (cfg : Config) {w : Word} (h : w.toNat / 4096 = 12) :
    decodeOp cfg w = .ok (.inp (regField11 w)) := by
  simp [decodeOp, opField_eq_ofNat h]

theorem decodeOp_out (cfg : Config) {w : Word} (h : w.toNat / 4096 = 13) :
    decodeOp cfg w = .ok (.out (regField11 w)) := by
  simp [decodeOp, opField_eq_ofNat h]

/-- Opcode `0xB` is no row of the table (R71). -/
theorem decodeOp_eleven (cfg : Config) {w : Word} (h : w.toNat / 4096 = 11) :
    decodeOp cfg w = .error (.unassignedOpcode 0xB#4) := by
  simp [decodeOp, opField_eq_ofNat h]

/-- The opcodes from 8 on (Table R70). -/
theorem high_opcode_cases {n : Nat} (hlow : 8 ≤ n) (hhigh : n < 16) :
    (∃ op, n = codeMem op) ∨ n = 11 ∨ n = 12 ∨ n = 13 ∨ (∃ op, n = codeBranch op) := by
  interval_cases n
  · exact .inl ⟨.ld, rfl⟩
  · exact .inl ⟨.st, rfl⟩
  · exact .inl ⟨.lda, rfl⟩
  · exact .inr (.inl rfl)
  · exact .inr (.inr (.inl rfl))
  · exact .inr (.inr (.inr (.inl rfl)))
  · exact .inr (.inr (.inr (.inr ⟨.bz, rfl⟩)))
  · exact .inr (.inr (.inr (.inr ⟨.bal, rfl⟩)))

/-- What the table gives a word, row by row: an instruction of the row's shape, or nothing for opcodes 5 and 11. -/
inductive TableRow (cfg : Config) (w : Word) : Prop where
  | typeR (op : OpR) (hop : w.toNat / 4096 = codeR op)
      (h : decodeOp cfg w = .ok (asmR op (regField7 w) (regField11 w) (regField9 w)))
  | typeR1 (op : OpR1) (hop : w.toNat / 4096 = codeR1 op)
      (h : decodeOp cfg w = .ok (asmR1 op (regField7 w) (regField11 w)))
  | hlt (hop : w.toNat / 4096 = 7) (h : decodeOp cfg w = .ok .hlt)
  | mem (op : OpMem) (hop : w.toNat / 4096 = codeMem op)
      (h : decodeOp cfg w = .ok (asmMem op (regField11 w) (immField w) (regField9 w)))
  | inp (hop : w.toNat / 4096 = 12) (h : decodeOp cfg w = .ok (.inp (regField11 w)))
  | out (hop : w.toNat / 4096 = 13) (h : decodeOp cfg w = .ok (.out (regField11 w)))
  | branch (op : OpBranch) (hop : w.toNat / 4096 = codeBranch op)
      (h : decodeOp cfg w = .ok (asmBranch op (regField11 w) (immField w) (branchBaseField cfg w)))
  | unassigned (hop : w.toNat / 4096 = 5 ∨ w.toNat / 4096 = 11) (e : DecodeError) (h : decodeOp cfg w = .error e)

theorem tableRow_of_word (cfg : Config) (w : Word) : TableRow cfg w := by
  have hlt : w.toNat / 4096 < 16 := by omega
  by_cases hlow : w.toNat / 4096 ≤ 7
  · obtain ⟨op, hop⟩ | ⟨op, hop⟩ | hop | hop := low_opcode_cases hlow
    · exact .typeR op hop (decodeOp_typeR cfg hop)
    · exact .typeR1 op hop (decodeOp_typeR1 cfg hop)
    · exact .unassigned (.inl hop) _ (decodeOp_five cfg hop)
    · exact .hlt hop (decodeOp_hlt cfg hop)
  · obtain ⟨op, hop⟩ | hop | hop | hop | ⟨op, hop⟩ := high_opcode_cases (Nat.lt_of_not_le hlow) hlt
    · exact .mem op hop (decodeOp_mem cfg hop)
    · exact .unassigned (.inr hop) _ (decodeOp_eleven cfg hop)
    · exact .inp hop (decodeOp_inp cfg hop)
    · exact .out hop (decodeOp_out cfg hop)
    · exact .branch op hop (decodeOp_branch cfg hop)

/-- The table rejects opcodes 5 and 11 alone (R71). -/
theorem decodeOp_error_iff (cfg : Config) (w : Word) :
    (∃ e, decodeOp cfg w = .error e) ↔ w.toNat / 4096 = 5 ∨ w.toNat / 4096 = 11 := by
  cases tableRow_of_word cfg w with
  | unassigned hop e h => exact ⟨fun _ => hop, fun _ => ⟨e, h⟩⟩
  | typeR op hop h =>
    have hcode := codeR_le op
    exact iff_of_false (by simp [h]) (by omega)
  | typeR1 op hop h =>
    have hcode := codeR1_cases op
    exact iff_of_false (by simp [h]) (by omega)
  | mem op hop h =>
    have hcode := codeMem_bounds op
    exact iff_of_false (by simp [h]) (by omega)
  | branch op hop h =>
    have hcode := codeBranch_bounds op
    exact iff_of_false (by simp [h]) (by omega)
  | hlt hop h | inp hop h | out hop h => exact iff_of_false (by simp [h]) (by omega)

/-! ### The check of the unused bits (R66) -/

/-- A 1 in a bit that the format of the word's opcode labels "Unused". -/
def UnusedBitSet (w : Word) : Prop :=
  (w.toNat / 4096 ≤ 3 ∧ w.toNat % 64 ≠ 0) ∨
  ((w.toNat / 4096 = 4 ∨ w.toNat / 4096 = 6) ∧ (w.toNat % 64 ≠ 0 ∨ w.toNat / 256 % 4 ≠ 0)) ∨
  (w.toNat / 4096 = 7 ∧ w.toNat % 4096 ≠ 0)

theorem illegalWord_iff (cfg : Config) (w : Word) : IllegalWord cfg w ↔
    (w.toNat / 4096 = 5 ∨ w.toNat / 4096 = 11) ∨ (cfg.strictUnused = true ∧ UnusedBitSet w) :=
  or_assoc.symm

theorem unusedMask_typeR {w : Word} {op : OpR} (h : w.toNat / 4096 = codeR op) :
    unusedMask (opField w) = fieldMask 0 6 := by
  rw [opField_eq_ofNat h]
  cases op <;> rfl

theorem unusedMask_typeR1 {w : Word} {op : OpR1} (h : w.toNat / 4096 = codeR1 op) :
    unusedMask (opField w) = fieldMask 0 6 ||| fieldMask 8 2 := by
  rw [opField_eq_ofNat h]
  cases op <;> rfl

theorem unusedMask_hlt {w : Word} (h : w.toNat / 4096 = 7) : unusedMask (opField w) = fieldMask 0 12 := by
  rw [opField_eq_ofNat h]
  rfl

theorem unusedMask_five {w : Word} (h : w.toNat / 4096 = 5) : unusedMask (opField w) = 0x0000#16 := by
  rw [opField_eq_ofNat h]
  rfl

/-- The mask of a word's opcode finds exactly the unused bits that are set. -/
theorem and_unusedMask_eq_zero_iff (w : Word) : w &&& unusedMask (opField w) = 0x0000#16 ↔ ¬ UnusedBitSet w := by
  by_cases hlow : w.toNat / 4096 ≤ 7
  · obtain ⟨op, hop⟩ | ⟨op, hop⟩ | hop | hop := low_opcode_cases hlow
    · have hcode := codeR_le op
      rw [unusedMask_typeR hop, and_fieldMask_eq_zero_iff w (by decide), UnusedBitSet]
      omega
    · have hcode := codeR1_cases op
      rw [unusedMask_typeR1 hop, BitVec.and_or_distrib_left, BitVec.or_eq_zero_iff,
        and_fieldMask_eq_zero_iff w (by decide), and_fieldMask_eq_zero_iff w (by decide), UnusedBitSet]
      omega
    · simp [unusedMask_five hop, UnusedBitSet, hop]
    · rw [unusedMask_hlt hop, and_fieldMask_eq_zero_iff w (by decide), UnusedBitSet]
      omega
  · have hmask : unusedMask (opField w) = 0x0000#16 := unusedMask_of_high (by rw [opField_toNat]; omega)
    simp only [hmask, BitVec.and_zero, true_iff, UnusedBitSet]
    omega

/-- Where the unused bits are clear or not checked, the table decides. -/
theorem decode_of_unused_ok {cfg : Config} {w : Word} (h : cfg.strictUnused = true → ¬ UnusedBitSet w) :
    decode cfg w = decodeOp cfg w := by
  cases hstrict : cfg.strictUnused with
  | false => simp [decode, hstrict]
  | true => simp [decode, (and_unusedMask_eq_zero_iff w).mpr (h hstrict)]

/-- A set unused bit is rejected where it is checked. -/
theorem decode_of_unused_set {cfg : Config} {w : Word} (hstrict : cfg.strictUnused = true) (h : UnusedBitSet w) :
    decode cfg w = .error (.unusedBitSet w) := by
  have hmask : w &&& unusedMask (opField w) ≠ 0x0000#16 := fun hz => (and_unusedMask_eq_zero_iff w).mp hz h
  simp [decode, hstrict, hmask]

/-- Settles O37: a word is rejected by the check of the unused bits or by the table. -/
theorem decodeRejectsExactlyIllegalWords : Obligations.DecodeRejectsExactlyIllegalWords := by
  intro cfg w
  rw [illegalWord_iff, ← decodeOp_error_iff cfg w]
  by_cases hunused : cfg.strictUnused = true ∧ UnusedBitSet w
  · exact ⟨fun _ => .inr hunused, fun _ => ⟨_, decode_of_unused_set hunused.1 hunused.2⟩⟩
  · rw [decode_of_unused_ok (not_and.mp hunused), or_iff_left hunused]

/-! ### The formats -/

theorem wordOf5_toNat {op f11 f9 f7 low : Nat} (hop : op < 16) (h11 : f11 < 4) (h9 : f9 < 4) (h7 : f7 < 4)
    (hlow : low < 64) : (wordOf5 op f11 f9 f7 low).toNat = op * 4096 + f11 * 1024 + f9 * 256 + f7 * 64 + low := by
  rw [wordOf5, BitVec.toNat_ofNat]
  omega

theorem wordOf4_toNat {op f11 f9 low : Nat} (hop : op < 16) (h11 : f11 < 4) (h9 : f9 < 4) (hlow : low < 256) :
    (wordOf4 op f11 f9 low).toNat = op * 4096 + f11 * 1024 + f9 * 256 + low := by
  rw [wordOf4, BitVec.toNat_ofNat]
  omega

/-- Settles O30: each field of the word is its number's remainder, and the unused bits are `low`. -/
theorem typeRFieldLayout : Obligations.TypeRFieldLayout := by
  intro cfg op rd rs1 rs2 low hlow hunused
  have hcode := codeR_le op
  have hrd := regNumber_lt rd
  have hrs1 := regNumber_lt rs1
  have hrs2 := regNumber_lt rs2
  have hw := wordOf5_toNat (by omega) hrs1 hrs2 hrd hlow (op := codeR op)
  generalize wordOf5 (codeR op) (regNumber rs1) (regNumber rs2) (regNumber rd) low = w at hw ⊢
  have hclear : cfg.strictUnused = true → ¬ UnusedBitSet w := by
    intro hstrict
    have hzero : low = 0 := hunused.resolve_left (by simp [hstrict])
    rw [UnusedBitSet]
    omega
  have h7 : regField7 w = rd := ofBits_extractLsb'_eq (by omega)
  have h11 : regField11 w = rs1 := ofBits_extractLsb'_eq (by omega)
  have h9 : regField9 w = rs2 := ofBits_extractLsb'_eq (by omega)
  rw [decode_of_unused_ok hclear, decodeOp_typeR cfg (op := op) (by omega), h7, h11, h9]

/-- Settles O31: as for Type R, with bits 9:8 and 5:0 unused. -/
theorem typeR1FieldLayout : Obligations.TypeR1FieldLayout := by
  intro cfg op rd rs mid low hmid hlow hunused
  have hcode := codeR1_cases op
  have hrd := regNumber_lt rd
  have hrs := regNumber_lt rs
  have hw := wordOf5_toNat (by omega) hrs hmid hrd hlow (op := codeR1 op)
  generalize wordOf5 (codeR1 op) (regNumber rs) mid (regNumber rd) low = w at hw ⊢
  have hclear : cfg.strictUnused = true → ¬ UnusedBitSet w := by
    intro hstrict
    obtain ⟨hmid0, hlow0⟩ : mid = 0 ∧ low = 0 := hunused.resolve_left (by simp [hstrict])
    rw [UnusedBitSet]
    omega
  have h7 : regField7 w = rd := ofBits_extractLsb'_eq (by omega)
  have h11 : regField11 w = rs := ofBits_extractLsb'_eq (by omega)
  rw [decode_of_unused_ok hclear, decodeOp_typeR1 cfg (op := op) (by omega), h7, h11]

/-- Settles O32. -/
theorem typeR0FieldLayout : Obligations.TypeR0FieldLayout := by
  intro cfg low hlow hunused
  have hw : (BitVec.ofNat 16 (7 * 4096 + low)).toNat = 7 * 4096 + low := by
    rw [BitVec.toNat_ofNat]
    omega
  have hclear : cfg.strictUnused = true → ¬ UnusedBitSet (BitVec.ofNat 16 (7 * 4096 + low)) := by
    intro hstrict
    have hzero : low = 0 := hunused.resolve_left (by simp [hstrict])
    rw [UnusedBitSet, hw]
    omega
  rw [decode_of_unused_ok hclear, decodeOp_hlt cfg (by omega)]

/-- The numbers of a Type I word are its opcode and its three fields, and it has no unused bits. -/
theorem decode_wordOf4 (cfg : Config) {op : Nat} (hop : 8 ≤ op) (hop' : op < 16) (ra rb : Reg) (imm : Imm8) {w : Word}
    (hword : w = wordOf4 op (regNumber ra) (regNumber rb) imm.toNat) :
    decode cfg w = decodeOp cfg w ∧ w.toNat / 4096 = op ∧ regField11 w = ra ∧ regField9 w = rb ∧ immField w = imm := by
  have hra := regNumber_lt ra
  have hrb := regNumber_lt rb
  have himm := imm.isLt
  have hw := wordOf4_toNat hop' hra hrb himm
  rw [← hword] at hw
  exact ⟨decode_of_high_opcode cfg (by omega), by omega, ofBits_extractLsb'_eq (by omega),
    ofBits_extractLsb'_eq (by omega), immField_eq (by omega)⟩

/-- The base field of a branch: ignored under `pc_relative`, `w[9:8]` under `base_plus_imm` (R154). -/
theorem branchBaseField_eq (cfg : Config) (w : Word) :
    branchBaseField cfg w = if cfg.branchMode = .pcRelative then .r0 else regField9 w := by
  cases hmode : cfg.branchMode <;> simp [branchBaseField, hmode]

/-- Settles O33: the rows of the Type I opcodes, with each field read from the word. -/
theorem typeIFieldLayout : Obligations.TypeIFieldLayout := by
  intro cfg ra rb imm
  refine ⟨fun op => ?mem, ?inp, ?out, fun op => ?branch⟩
  case mem =>
    have hbounds := codeMem_bounds op
    obtain ⟨hdecode, hop, h11, h9, himm⟩ := decode_wordOf4 cfg hbounds.1 (by omega) ra rb imm rfl
    rw [hdecode, decodeOp_mem cfg hop, h11, himm, h9]
  case inp =>
    obtain ⟨hdecode, hop, h11, -⟩ := decode_wordOf4 cfg (op := 12) (by decide) (by decide) ra rb imm rfl
    rw [hdecode, decodeOp_inp cfg hop, h11]
  case out =>
    obtain ⟨hdecode, hop, h11, -⟩ := decode_wordOf4 cfg (op := 13) (by decide) (by decide) ra rb imm rfl
    rw [hdecode, decodeOp_out cfg hop, h11]
  case branch =>
    have hbounds := codeBranch_bounds op
    obtain ⟨hdecode, hop, h11, h9, himm⟩ := decode_wordOf4 cfg (op := codeBranch op) (by omega) (by omega) ra rb imm rfl
    rw [hdecode, decodeOp_branch cfg hop, h11, himm, branchBaseField_eq, h9]

end Sys2Proof.Machine
end

section
/-! PROOFS. The canonical word of an instruction: its number, what decoding it gives, and what encoding a decoded
instruction gives (30_encoding.md section 4). -/

namespace Sys2Proof.Machine

/-! ### Words from fields -/

/-- Adding a field below the bits already set. -/
theorem or_fieldAt_toNat {x : Word} {n lo : Nat} (b : BitVec n) (hn : n + lo ≤ 16) (hx : x.toNat % 2 ^ (n + lo) = 0) :
    (x ||| fieldAt lo b).toNat = x.toNat + b.toNat * 2 ^ lo := by
  have hb : b.toNat * 2 ^ lo < 2 ^ (n + lo) := by
    rw [Nat.pow_add]
    exact Nat.mul_lt_mul_of_pos_right b.isLt (Nat.two_pow_pos lo)
  rw [BitVec.toNat_or, fieldAt_toNat b hn, ← Nat.mul_div_cancel' (Nat.dvd_of_mod_eq_zero hx),
    ← Nat.two_pow_add_eq_or_of_lt hb]

/-- The part that Types R and I share: opcode, bits 11:10 and bits 9:8. -/
theorem header_toNat (op : BitVec 4) (p q : Reg) : (fieldAt 12 op ||| fieldAt 10 p.bits ||| fieldAt 8 q.bits).toNat =
    op.toNat * 4096 + regNumber p * 1024 + regNumber q * 256 := by
  have hop : (fieldAt 12 op).toNat = op.toNat * 4096 := fieldAt_toNat op (by decide)
  have hp : (fieldAt 12 op ||| fieldAt 10 p.bits).toNat = op.toNat * 4096 + regNumber p * 1024 := by
    rw [or_fieldAt_toNat _ (by decide) (by omega), hop, toNat_bits]
    rfl
  rw [or_fieldAt_toNat _ (by decide) (by omega), hp, toNat_bits]
  rfl

theorem encodeR_eq_wordOf5 (op : BitVec 4) (rd rs1 rs2 : Reg) :
    encodeR op rd rs1 rs2 = wordOf5 op.toNat (regNumber rs1) (regNumber rs2) (regNumber rd) 0 := by
  have hheader := header_toNat op rs1 rs2
  apply BitVec.eq_of_toNat_eq
  rw [wordOf5_toNat op.isLt (regNumber_lt rs1) (regNumber_lt rs2) (regNumber_lt rd) (by decide), encodeR,
    or_fieldAt_toNat _ (by decide) (by omega), hheader, toNat_bits, Nat.add_zero]
  rfl

/-- The field of `$0` is zero wherever it stands. -/
theorem fieldAt_bits_r0 (lo : Nat) : fieldAt lo Reg.r0.bits = 0x0000#16 := BitVec.zero_shiftLeft lo

/-- Type R1 is Type R with zeros in bits 9:8. -/
theorem encodeR1_eq_encodeR (op : BitVec 4) (rd rs : Reg) : encodeR1 op rd rs = encodeR op rd rs .r0 := by
  rw [encodeR1, encodeR, fieldAt_bits_r0, BitVec.or_zero]

theorem encodeI_eq_wordOf4 (op : BitVec 4) (ra rb : Reg) (imm : Imm8) :
    encodeI op ra rb imm = wordOf4 op.toNat (regNumber ra) (regNumber rb) imm.toNat := by
  have hheader := header_toNat op ra rb
  apply BitVec.eq_of_toNat_eq
  rw [wordOf4_toNat op.isLt (regNumber_lt ra) (regNumber_lt rb) imm.isLt, encodeI,
    or_fieldAt_toNat _ (by decide) (by omega), hheader, Nat.pow_zero, Nat.mul_one]

/-! ### The word of each row's instructions -/

theorem encode_asmR (op : OpR) (d s t : Reg) : encode (asmR op d s t) = encodeR (BitVec.ofNat 4 (codeR op)) d s t := by
  cases op <;> rfl

theorem encode_asmR1 (op : OpR1) (d s : Reg) : encode (asmR1 op d s) = encodeR1 (BitVec.ofNat 4 (codeR1 op)) d s := by
  cases op <;> rfl

theorem encode_asmMem (op : OpMem) (a b : Reg) (imm : Imm8) :
    encode (asmMem op a imm b) = encodeI (BitVec.ofNat 4 (codeMem op)) a b imm := by
  cases op <;> rfl

theorem encode_asmBranch (op : OpBranch) (a b : Reg) (imm : Imm8) :
    encode (asmBranch op a imm b) = encodeI (BitVec.ofNat 4 (codeBranch op)) a b imm := by
  cases op <;> rfl

/-! ### Decoding a canonical word -/

theorem decode_encode_asmR (cfg : Config) (op : OpR) (d s t : Reg) :
    decode cfg (encode (asmR op d s t)) = .ok (asmR op d s t) := by
  have hcode : (BitVec.ofNat 4 (codeR op)).toNat = codeR op := by cases op <;> rfl
  rw [encode_asmR, encodeR_eq_wordOf5, hcode]
  exact typeRFieldLayout cfg op d s t 0 (by decide) (.inr rfl)

theorem decode_encode_asmR1 (cfg : Config) (op : OpR1) (d s : Reg) :
    decode cfg (encode (asmR1 op d s)) = .ok (asmR1 op d s) := by
  have hcode : (BitVec.ofNat 4 (codeR1 op)).toNat = codeR1 op := by cases op <;> rfl
  rw [encode_asmR1, encodeR1_eq_encodeR, encodeR_eq_wordOf5, hcode]
  exact typeR1FieldLayout cfg op d s 0 0 (by decide) (by decide) (.inr ⟨rfl, rfl⟩)

theorem decode_encode_hlt (cfg : Config) : decode cfg (encode .hlt) = .ok .hlt :=
  typeR0FieldLayout cfg 0 (by decide) (.inr rfl)

theorem decode_encode_asmMem (cfg : Config) (op : OpMem) (a b : Reg) (imm : Imm8) :
    decode cfg (encode (asmMem op a imm b)) = .ok (asmMem op a imm b) := by
  have hcode : (BitVec.ofNat 4 (codeMem op)).toNat = codeMem op := by cases op <;> rfl
  obtain ⟨hmem, -⟩ := typeIFieldLayout cfg a b imm
  rw [encode_asmMem, encodeI_eq_wordOf4, hcode]
  exact hmem op

theorem decode_encode_inp (cfg : Config) (a : Reg) : decode cfg (encode (.inp a)) = .ok (.inp a) := by
  obtain ⟨-, hinp, -⟩ := typeIFieldLayout cfg a .r0 0x00#8
  rw [encode, encodeI_eq_wordOf4]
  exact hinp

theorem decode_encode_out (cfg : Config) (a : Reg) : decode cfg (encode (.out a)) = .ok (.out a) := by
  obtain ⟨-, -, hout, -⟩ := typeIFieldLayout cfg a .r0 0x00#8
  rw [encode, encodeI_eq_wordOf4]
  exact hout

/-- A branch keeps its base field where the mode has one. -/
theorem decode_encode_asmBranch (cfg : Config) (op : OpBranch) (a b : Reg) (imm : Imm8) :
    decode cfg (encode (asmBranch op a imm b)) =
      .ok (asmBranch op a imm (if cfg.branchMode = .pcRelative then .r0 else b)) := by
  have hcode : (BitVec.ofNat 4 (codeBranch op)).toNat = codeBranch op := by cases op <;> rfl
  obtain ⟨-, -, -, hbranch⟩ := typeIFieldLayout cfg a b imm
  rw [encode_asmBranch, encodeI_eq_wordOf4, hcode]
  exact hbranch op

/-! ### Well-formedness -/

theorem branchBaseOk_iff (cfg : Config) (b : Reg) :
    branchBaseOk cfg b = true ↔ (if cfg.branchMode = .pcRelative then .r0 else b) = b := by
  cases hmode : cfg.branchMode with
  | pcRelative => simpa [branchBaseOk, hmode] using eq_comm
  | basePlusImm => simp [branchBaseOk, hmode]

theorem wellFormed_asmBranch (cfg : Config) (op : OpBranch) (a b : Reg) (imm : Imm8) :
    (asmBranch op a imm b).wellFormed cfg = branchBaseOk cfg b := by
  cases op <;> rfl

/-- The word of a well-formed branch keeps its base. -/
theorem decode_encode_branch_of_wellFormed (cfg : Config) (op : OpBranch) (a b : Reg) (imm : Imm8)
    (h : branchBaseOk cfg b = true) :
    decode cfg (encode (asmBranch op a imm b)) = .ok (asmBranch op a imm b) := by
  rw [decode_encode_asmBranch, (branchBaseOk_iff cfg b).mp h]

/-- Settles O34, by the shape of the instruction; well-formedness is what a branch needs. -/
theorem decodeEncodeRoundTrip : Obligations.DecodeEncodeRoundTrip := by
  intro cfg i hwf
  cases i with
  | add d s t => exact decode_encode_asmR cfg .add d s t
  | and d s t => exact decode_encode_asmR cfg .and d s t
  | sub d s t => exact decode_encode_asmR cfg .sub d s t
  | slt d s t => exact decode_encode_asmR cfg .slt d s t
  | not d s => exact decode_encode_asmR1 cfg .not d s
  | sr d s => exact decode_encode_asmR1 cfg .sr d s
  | hlt => exact decode_encode_hlt cfg
  | ld a imm b => exact decode_encode_asmMem cfg .ld a b imm
  | st a imm b => exact decode_encode_asmMem cfg .st a b imm
  | lda a imm b => exact decode_encode_asmMem cfg .lda a b imm
  | inp a => exact decode_encode_inp cfg a
  | out a => exact decode_encode_out cfg a
  | bz a imm b => exact decode_encode_branch_of_wellFormed cfg .bz a b imm hwf
  | bal a imm b => exact decode_encode_branch_of_wellFormed cfg .bal a b imm hwf

/-! ### Meaning is kept -/

/-- What is not well formed is a branch with a base under `pc_relative`. -/
theorem branch_of_not_wellFormed {cfg : Config} {i : Instr} (h : i.wellFormed cfg ≠ true) :
    cfg.branchMode = .pcRelative ∧ ∃ op a imm b, i = asmBranch op a imm b := by
  have hbase : ∀ b, branchBaseOk cfg b ≠ true → cfg.branchMode = .pcRelative := by
    intro b hb
    by_contra hmode
    exact hb ((branchBaseOk_iff cfg b).mpr (if_neg hmode))
  cases i with
  | bz a imm b => exact ⟨hbase b h, .bz, a, imm, b, rfl⟩
  | bal a imm b => exact ⟨hbase b h, .bal, a, imm, b, rfl⟩
  | _ => exact absurd rfl h

/-- Under `pc_relative` a branch does not use its base. -/
theorem exec_asmBranch_base {s : State} (h : s.cfg.branchMode = .pcRelative) (op : OpBranch) (a b b' : Reg) (imm : Imm8) :
    exec (asmBranch op a imm b) s = exec (asmBranch op a imm b') s := by
  have htarget : branchTarget imm b s = branchTarget imm b' s := by
    rw [branchTarget_pcRelative imm b s h, branchTarget_pcRelative imm b' s h]
  cases op with
  | bz => simp only [asmBranch, exec_bz, htarget]
  | bal => simp only [asmBranch, exec_bal, htarget]

/-- Settles O36: the word loses only the base of a branch under `pc_relative`, which the branch does not use. -/
theorem encodingKeepsTheMeaning : Obligations.EncodingKeepsTheMeaning := by
  intro cfg i
  by_cases hwf : i.wellFormed cfg = true
  · exact ⟨i, decodeEncodeRoundTrip cfg i hwf, fun _ _ => rfl⟩
  · obtain ⟨hmode, op, a, imm, b, rfl⟩ := branch_of_not_wellFormed hwf
    exact ⟨_, decode_encode_asmBranch cfg op a b imm,
      fun s hcfg => exec_asmBranch_base (hcfg ▸ hmode) op a _ b imm⟩

/-! ### Encoding a decoded word -/

/-- The bits a Type R word keeps. -/
theorem encodeR_fields (w : Word) :
    encodeR (opField w) (regField7 w) (regField11 w) (regField9 w) = w &&& 0xFFC0#16 := by
  have hmask : fieldMask 12 4 ||| fieldMask 10 2 ||| fieldMask 8 2 ||| fieldMask 6 2 = 0xFFC0#16 := rfl
  simp only [encodeR, opField, regField7, regField11, regField9, bits_ofBits, fieldAt_extractLsb',
    ← BitVec.and_or_distrib_left, hmask]

/-- The bits a Type R1 word keeps. -/
theorem encodeR1_fields (w : Word) : encodeR1 (opField w) (regField7 w) (regField11 w) = w &&& 0xFCC0#16 := by
  have hmask : fieldMask 12 4 ||| fieldMask 10 2 ||| fieldMask 6 2 = 0xFCC0#16 := rfl
  simp only [encodeR1, opField, regField7, regField11, bits_ofBits, fieldAt_extractLsb', ← BitVec.and_or_distrib_left,
    hmask]

/-- The bits a Type R0 word keeps. -/
theorem encodeR0_fields (w : Word) : encodeR0 (opField w) = w &&& 0xF000#16 := fieldAt_extractLsb' w 12 4

/-- A Type I word keeps all its bits. -/
theorem encodeI_fields (w : Word) :
    encodeI (opField w) (regField11 w) (regField9 w) (immField w) = w &&& 0xFFFF#16 := by
  have hmask : fieldMask 12 4 ||| fieldMask 10 2 ||| fieldMask 8 2 ||| fieldMask 0 8 = 0xFFFF#16 := rfl
  simp only [encodeI, opField, regField11, regField9, immField, bits_ofBits, fieldAt_extractLsb',
    ← BitVec.and_or_distrib_left, hmask]

/-- The bits a Type I word keeps when its base is ignored. -/
theorem encodeI_fields_no_base (w : Word) :
    encodeI (opField w) (regField11 w) .r0 (immField w) = w &&& 0xFCFF#16 := by
  have hmask : fieldMask 12 4 ||| fieldMask 10 2 ||| fieldMask 0 8 = 0xFCFF#16 := rfl
  simp only [encodeI, fieldAt_bits_r0, BitVec.or_zero, opField, regField11, immField, bits_ofBits, fieldAt_extractLsb',
    ← BitVec.and_or_distrib_left, hmask]

/-- The bits an IN or OUT word keeps. -/
theorem encodeI_fields_port (w : Word) : encodeI (opField w) (regField11 w) .r0 0x00#8 = w &&& 0xFC00#16 := by
  have hmask : fieldMask 12 4 ||| fieldMask 10 2 = 0xFC00#16 := rfl
  have himm : fieldAt 0 0x00#8 = 0x0000#16 := rfl
  simp only [encodeI, fieldAt_bits_r0, himm, BitVec.or_zero, opField, regField11, bits_ofBits, fieldAt_extractLsb',
    ← BitVec.and_or_distrib_left, hmask]

/-- The word of a decoded branch, in each mode. -/
theorem encode_branch_of_fields (cfg : Config) (w : Word) (op : OpBranch) (hop : w.toNat / 4096 = codeBranch op) :
    encode (asmBranch op (regField11 w) (immField w) (branchBaseField cfg w)) =
      w &&& keptBits cfg (asmBranch op (regField11 w) (immField w) (branchBaseField cfg w)) := by
  have hkept : ∀ a imm b, keptBits cfg (asmBranch op a imm b) =
      if cfg.branchMode = .pcRelative then 0xFCFF#16 else 0xFFFF#16 := by
    cases op <;> exact fun _ _ _ => rfl
  rw [encode_asmBranch, ← opField_eq_ofNat hop, hkept, branchBaseField_eq]
  split
  · exact encodeI_fields_no_base w
  · exact encodeI_fields w

/-- Settles O35, row by row of the table. -/
theorem encodeOfDecodeIsCanonicalWord : Obligations.EncodeOfDecodeIsCanonicalWord := by
  intro cfg w i hdecode
  have hrow := decodeOp_of_decode hdecode
  cases tableRow_of_word cfg w with
  | typeR op hop h =>
    cases h.symm.trans hrow
    rw [encode_asmR, ← opField_eq_ofNat hop, encodeR_fields]
    cases op <;> exact ⟨rfl, rfl⟩
  | typeR1 op hop h =>
    cases h.symm.trans hrow
    rw [encode_asmR1, ← opField_eq_ofNat hop, encodeR1_fields]
    cases op <;> exact ⟨rfl, rfl⟩
  | hlt hop h =>
    cases h.symm.trans hrow
    have hword := encodeR0_fields w
    rw [opField_eq_ofNat hop] at hword
    exact ⟨rfl, hword⟩
  | mem op hop h =>
    cases h.symm.trans hrow
    rw [encode_asmMem, ← opField_eq_ofNat hop, encodeI_fields]
    cases op <;> exact ⟨rfl, rfl⟩
  | inp hop h =>
    cases h.symm.trans hrow
    have hword := encodeI_fields_port w
    rw [opField_eq_ofNat hop] at hword
    exact ⟨rfl, hword⟩
  | out hop h =>
    cases h.symm.trans hrow
    have hword := encodeI_fields_port w
    rw [opField_eq_ofNat hop] at hword
    exact ⟨rfl, hword⟩
  | branch op hop h =>
    cases h.symm.trans hrow
    refine ⟨?_, encode_branch_of_fields cfg w op hop⟩
    rw [wellFormed_asmBranch, branchBaseField_eq, branchBaseOk_iff]
    split <;> rfl
  | unassigned hop e h => cases h.symm.trans hrow

/-- Settles O38: each word is written out and decodes by evaluation. -/
theorem sampleWordsDecode : Obligations.SampleWordsDecode := ⟨rfl, rfl, rfl, rfl, rfl, rfl⟩

end Sys2Proof.Machine
end

section
/-! PROOFS. The frame of an instruction that computes a register, the arithmetic of the results, and the statements of
40_type_r_alu.md and 41_type_r1_unary.md. -/

namespace Sys2Proof.Machine

/-! ### Frames -/

theorem onlyRegsAndPc_finishWith (s : State) (rd : Reg) (v : Word) : OnlyRegsAndPc s (s.finishWith rd v) :=
  ⟨fun _ => rfl, ⟨rfl, rfl⟩, rfl, ⟨rfl, rfl⟩, rfl⟩

/-- `finishWith` is the frame of an instruction that computes one register (R100, R110, R130). -/
theorem writesOnly_finishWith (s : State) (rd : Reg) (v : Word) : WritesOnly rd s (s.finishWith rd v) :=
  ⟨fun r hr => s.readReg_finishWith_of_ne rd r v hr, pcNext_of_pc_eq rfl, onlyRegsAndPc_finishWith s rd v⟩

/-! ### Comparison (R104) -/

theorem lessThan_signed {cfg : Config} (h : cfg.sltSigned = true) (a b : Word) :
    lessThan cfg a b = decide (a.toInt < b.toInt) := by
  simp [lessThan, h]

theorem lessThan_unsigned {cfg : Config} (h : cfg.sltSigned = false) (a b : Word) :
    lessThan cfg a b = decide (a.toNat < b.toNat) := by
  simp [lessThan, h]

/-- The result of SLT as a number. -/
theorem toNat_slt_result (c : Bool) : (if c then 0x0001#16 else 0x0000#16).toNat = if c then 1 else 0 := by
  cases c <;> rfl

/-- Bit 15 is set in the upper half of the words. -/
theorem getLsbD_fifteen (a : Word) : a.getLsbD 15 = decide (32768 ≤ a.toNat) := by
  rw [← BitVec.msb_eq_getLsbD_last, BitVec.msb_eq_decide]

/-- The two's-complement reading: bit 15 counts `-2^15` (00_scope.md R8). -/
theorem word_toInt (a : Word) : a.toInt = if 32768 ≤ a.toNat then (a.toNat : Int) - 65536 else a.toNat := by
  rw [BitVec.toInt_eq_toNat_cond]
  split <;> split <;> omega

/-! ### Shift (R112) -/

theorem shiftRightOne_zero {cfg : Config} (h : cfg.srFill = .zero) (a : Word) :
    (shiftRightOne cfg a).toNat = a.toNat / 2 := by
  simp [shiftRightOne, h, Nat.shiftRight_eq_div_pow]

theorem shiftRightOne_sign {cfg : Config} (h : cfg.srFill = .sign) (a : Word) :
    (shiftRightOne cfg a).toInt = a.toInt.fdiv 2 := by
  rw [shiftRightOne, h, BitVec.toInt_sshiftRight, Int.shiftRight_eq_div_pow, Int.fdiv_eq_ediv_of_nonneg _ (by decide)]
  rfl

/-! ### The statements -/

/-- Settles O1. -/
theorem addWritesSumModulo : Obligations.AddWritesSumModulo := by
  intro rd rs1 rs2 s
  refine ⟨_, exec_add rd rs1 rs2 s, ?_, writesOnly_finishWith s rd _⟩
  rw [State.readReg_finishWith_same]
  exact BitVec.toNat_add _ _

/-- Settles O2: the word is a Type R word with no unused bit, and AND is bitwise. -/
theorem andWritesBitwiseAnd : Obligations.AndWritesBitwiseAnd := by
  refine ⟨fun cfg rd rs1 rs2 => typeRFieldLayout cfg .and rd rs1 rs2 0 (by decide) (.inr rfl),
    fun rd rs1 rs2 s => ⟨_, exec_and rd rs1 rs2 s, fun k _ => ?_, writesOnly_finishWith s rd _⟩⟩
  rw [State.readReg_finishWith_same, BitVec.getLsbD_and, Bool.and_eq_true]

/-- Settles O3: the borrow of `BitVec` subtraction is the reduction of the difference over the integers. -/
theorem subWritesDifferenceModulo : Obligations.SubWritesDifferenceModulo := by
  intro rd rs1 rs2 s
  refine ⟨_, exec_sub rd rs1 rs2 s, ?_, writesOnly_finishWith s rd _⟩
  rw [State.readReg_finishWith_same, BitVec.toNat_sub]
  omega

/-- Settles O4: SLT writes the comparison that `SLT_SIGNED` selects. -/
theorem sltWritesComparison : Obligations.SltWritesComparison := by
  intro rd rs1 rs2 s
  refine ⟨_, exec_slt rd rs1 rs2 s, writesOnly_finishWith s rd _, fun hsigned => ?_, fun hunsigned => ?_⟩
  · rw [State.readReg_finishWith_same, toNat_slt_result, lessThan_signed hsigned]
    simp
  · rw [State.readReg_finishWith_same, toNat_slt_result, lessThan_unsigned hunsigned]
    simp

/-- Settles O5: with equal bits 15 both readings order alike; with different ones the word with bit 15 set is the
greater unsigned and the less signed. -/
theorem sltReadingsDifferOnSignBits : Obligations.SltReadingsDifferOnSignBits := by
  intro c d a b hsigned hunsigned
  have ha := a.isLt
  have hb := b.isLt
  rw [lessThan_signed hsigned, lessThan_unsigned hunsigned, getLsbD_fifteen, getLsbD_fifteen, word_toInt, word_toInt,
    ne_eq, ne_eq, decide_eq_decide, decide_eq_decide]
  split <;> split <;> omega

/-- Settles O6: the word is a Type R1 word with no unused bit, and the complement is taken bit by bit. -/
theorem notWritesOnesComplement : Obligations.NotWritesOnesComplement := by
  refine ⟨fun cfg rd rs => typeR1FieldLayout cfg .not rd rs 0 0 (by decide) (by decide) (.inr ⟨rfl, rfl⟩),
    fun rd rs s => ⟨_, exec_not rd rs s, fun k hk => ?_, ?_, writesOnly_finishWith s rd _⟩⟩
  · rw [State.readReg_finishWith_same, BitVec.getLsbD_not]
    simp [hk]
  · rw [State.readReg_finishWith_same]
    exact BitVec.toNat_not

/-- Settles O7: one lemma per fill. -/
theorem srHalvesItsOperand : Obligations.SrHalvesItsOperand := by
  intro rd rs s
  refine ⟨_, exec_sr rd rs s, writesOnly_finishWith s rd _, fun hzero => ?_, fun hsign => ?_⟩
  · rw [State.readReg_finishWith_same, shiftRightOne_zero hzero]
  · rw [State.readReg_finishWith_same, shiftRightOne_sign hsign]

/-! ### The step of a Type R and of a Type R1 word -/

/-- What a Type R instruction computes from its two sources. -/
def valueR (op : OpR) (cfg : Config) (a b : Word) : Word :=
  match op with
  | .add => a + b
  | .and => a &&& b
  | .sub => a - b
  | .slt => if lessThan cfg a b then 0x0001#16 else 0x0000#16

theorem exec_asmR (op : OpR) (rd rs1 rs2 : Reg) (s : State) : exec (asmR op rd rs1 rs2) s =
    .next (s.finishWith rd (valueR op s.cfg (s.readReg rs1) (s.readReg rs2))) := by
  cases op <;> rfl

/-- What a Type R1 instruction computes from its source. -/
def valueR1 (op : OpR1) (cfg : Config) (a : Word) : Word :=
  match op with
  | .not => ~~~ a
  | .sr => shiftRightOne cfg a

theorem exec_asmR1 (op : OpR1) (rd rs : Reg) (s : State) : exec (asmR1 op rd rs) s =
    .next (s.finishWith rd (valueR1 op s.cfg (s.readReg rs))) := by
  cases op <;> rfl

/-- Settles O8: the word decodes by its fields, and the instruction writes `valueR` of its sources. -/
theorem typeRStepShape : Obligations.TypeRStepShape := by
  intro op
  refine ⟨valueR op, fun rd rs1 rs2 low s hlow hrunning hunused hfetch => ?_⟩
  have hexecutes : s.Executes (asmR op rd rs1 rs2) :=
    ⟨hrunning, _, hfetch, typeRFieldLayout s.cfg op rd rs1 rs2 low hlow hunused⟩
  exact ⟨_, hexecutes.step_eq.trans (exec_asmR op rd rs1 rs2 s), s.readReg_finishWith_same rd _,
    writesOnly_finishWith s rd _⟩

/-- Settles O9: the word decodes by its fields, and the instruction writes `valueR1` of its source. -/
theorem typeR1StepShape : Obligations.TypeR1StepShape := by
  intro op
  refine ⟨valueR1 op, fun rd rs mid low s hmid hlow hrunning hunused hfetch => ?_⟩
  have hexecutes : s.Executes (asmR1 op rd rs) :=
    ⟨hrunning, _, hfetch, typeR1FieldLayout s.cfg op rd rs mid low hmid hlow hunused⟩
  exact ⟨_, hexecutes.step_eq.trans (exec_asmR1 op rd rs s), s.readReg_finishWith_same rd _,
    writesOnly_finishWith s rd _⟩

end Sys2Proof.Machine
end

section
/-! PROOFS. The operand forms as numbers, and the statements of 20_memory.md and 43_type_i_memory.md and on `$0`
(10_state.md section 1). -/

namespace Sys2Proof.Machine

/-! ### Immediate, base and effective address as numbers -/

theorem immValue_sext {cfg : Config} (h : cfg.immExt = .sext) (imm : Imm8) :
    immValue cfg imm = if 128 ≤ imm.toNat then imm.toNat + 65280 else imm.toNat := by
  simp [immValue, h]

theorem immValue_zext {cfg : Config} (h : cfg.immExt = .zext) (imm : Imm8) : immValue cfg imm = imm.toNat := by
  simp [immValue, h]

/-- The two extensions agree on an immediate below 128. -/
theorem immValue_of_lt (cfg : Config) {imm : Imm8} (h : imm.toNat < 128) : immValue cfg imm = imm.toNat :=
  if_neg fun hext => absurd hext.2 (by omega)

/-- The two's-complement reading of an immediate field. -/
theorem imm8_toInt (imm : Imm8) : imm.toInt = if 128 ≤ imm.toNat then (imm.toNat : Int) - 256 else imm.toNat := by
  rw [BitVec.toInt_eq_toNat_cond]
  split <;> split <;> omega

theorem imm16_toNat (cfg : Config) (imm : Imm8) : (imm16 cfg imm).toNat = immValue cfg imm := by
  have himm := imm.isLt
  cases hext : cfg.immExt with
  | zext => rw [imm16_zext cfg imm hext, immValue_zext hext]
  | sext =>
    have hvalue := imm16_sext cfg imm hext
    rw [word_toInt, imm8_toInt] at hvalue
    rw [immValue_sext hext]
    split at hvalue <;> split at hvalue <;> split <;> omega

theorem baseVal_toNat (rb : Reg) (s : State) : (baseVal rb s).toNat = baseValue rb s := by
  rw [baseVal_eq, baseValue]
  split <;> rfl

theorem effAddr_toNat (imm : Imm8) (rb : Reg) (s : State) :
    (effAddr imm rb s).toNat = (baseValue rb s + immValue s.cfg imm) % 65536 := by
  rw [effAddr, BitVec.toNat_add, baseVal_toNat, imm16_toNat]

/-- With base `$0` the address is the extended immediate. -/
theorem effAddr_r0 (imm : Imm8) (s : State) : effAddr imm .r0 s = imm16 s.cfg imm := BitVec.zero_add _

/-- Settles O14. -/
theorem effectiveAddressSum : Obligations.EffectiveAddressSum := effAddr_toNat

/-- Settles O23: with base `$0` an address is an extended immediate, and then of its own low byte. -/
theorem absoluteFormReach : Obligations.AbsoluteFormReach := by
  intro s a
  have hreach : (∃ imm, effAddr imm .r0 s = a) ↔ ∃ imm : Imm8, immValue s.cfg imm = a.toNat := by
    simp only [effAddr_r0, ← BitVec.toNat_inj, imm16_toNat]
  have hlow : (BitVec.ofNat 8 a.toNat).toNat = a.toNat % 256 := BitVec.toNat_ofNat a.toNat 8
  refine ⟨fun hext => hreach.trans ⟨?sextBound, fun hbound => ⟨BitVec.ofNat 8 a.toNat, ?sextImm⟩⟩,
    fun hext => hreach.trans ⟨?zextBound, fun hbound => ⟨BitVec.ofNat 8 a.toNat, ?zextImm⟩⟩⟩
  case sextBound =>
    rintro ⟨imm, himm⟩
    rw [immValue_sext hext] at himm
    split at himm <;> omega
  case sextImm =>
    rw [immValue_sext hext, hlow]
    split <;> omega
  case zextBound =>
    rintro ⟨imm, himm⟩
    rw [immValue_zext hext] at himm
    omega
  case zextImm =>
    rw [immValue_zext hext, hlow]
    omega

/-! ### LD, ST and LDA -/

/-- Settles O15: the address is the word whose number is the sum. -/
theorem ldLoadsTheWord : Obligations.LdLoadsTheWord := by
  intro ra rb imm s
  refine ⟨_, exec_ld ra rb imm s, fun ea hea => ?_, writesOnly_finishWith s ra _⟩
  have heq : effAddr imm rb s = ea := BitVec.eq_of_toNat_eq ((effAddr_toNat imm rb s).trans hea.symm)
  rw [State.readReg_finishWith_same, heq]

/-- Settles O16: the rules of the data memory for the store, and its frame. -/
theorem stStoresTheWord : Obligations.StStoresTheWord := by
  intro ra rb imm s
  refine ⟨_, exec_st ra rb imm s, ?written, fun a ha => ?others, effAddr_toNat imm rb s, fun _ => rfl,
    pcNext_of_pc_eq rfl, ⟨rfl, rfl⟩, rfl, ⟨rfl, rfl⟩, rfl⟩
  case written => rw [State.memRead_advance, State.memRead_memWrite_same]
  case others => rw [State.memRead_advance, State.memRead_memWrite_of_ne s _ a _ ha]

/-- Settles O17. -/
theorem ldaWritesTheAddress : Obligations.LdaWritesTheAddress := by
  intro ra rb imm s
  refine ⟨_, exec_lda ra rb imm s, ?_, writesOnly_finishWith s ra _⟩
  rw [State.readReg_finishWith_same, effAddr_toNat]

/-- Settles O18: the store moves no operand of the load, and the memory's rules give the word loaded. -/
theorem loadSeesLatestStore : Obligations.LoadSeesLatestStore := by
  intro ra rb rc imm s
  refine ⟨_, exec_st ra rb imm s, ⟨_, exec_ld_after_st s ra rb rc imm, State.readReg_finishWith_same _ rc _⟩,
    fun imm' rb' hne => ⟨_, _, exec_ld rc rb' imm' _, exec_ld rc rb' imm' s, ?_⟩⟩
  have haddr : effAddr imm' rb' (s.memWrite (effAddr imm rb s) (s.readReg ra)).advance = effAddr imm' rb' s :=
    effAddr_congr rfl rfl imm' rb'
  rw [State.readReg_finishWith_same, State.readReg_finishWith_same, haddr, State.memRead_advance,
    State.memRead_memWrite_of_ne s _ _ _ hne]

/-- Settles O10: NOT gives 65535 minus the source, and LDA 1 adds one to it. -/
theorem notThenLdaOneNegates : Obligations.NotThenLdaOneNegates := by
  intro rd rs s hrd
  refine ⟨_, _, exec_not rd rs s, exec_lda rd rd 0x01#8 _, ?sum, ?pc, fun r hr => ?others,
    fun _ => rfl, ⟨rfl, rfl⟩, rfl, ⟨rfl, rfl⟩, rfl⟩
  case sum =>
    have hsource := (s.readReg rs).isLt
    have himm : ∀ cfg, immValue cfg 0x01#8 = 1 := fun cfg => immValue_of_lt cfg (by decide)
    rw [State.readReg_finishWith_same, effAddr_toNat, himm, baseValue, if_neg hrd, State.readReg_finishWith_same,
      BitVec.toNat_not]
    omega
  case pc =>
    rw [State.finishWith_pc, State.finishWith_pc, BitVec.add_assoc]
    exact BitVec.toNat_add s.pc 2#16
  case others =>
    rw [State.readReg_finishWith_of_ne _ rd r _ hr, State.readReg_finishWith_of_ne s rd r _ hr]

/-! ### Canonical memories -/

/-- A rising list lists nothing below its start. -/
theorem Memory.lookup_of_lt {m : Memory} {lo a : Nat} (hm : Memory.wfFrom lo m = true) (ha : a < lo) :
    Memory.lookup m a = none := by
  induction m generalizing lo with
  | nil => rfl
  | cons cell rest ih =>
    obtain ⟨b, w⟩ := cell
    simp only [Memory.wfFrom, Bool.and_eq_true, decide_eq_true_eq] at hm
    obtain ⟨⟨hlo, -⟩, hrest⟩ := hm
    rw [Memory.lookup, if_neg (by omega)]
    exact ih hrest (by omega)

theorem Memory.store_of_lookup {m : Memory} {lo a : Nat} {v : Word} (hm : Memory.wfFrom lo m = true)
    (ha : Memory.lookup m a = some v) : Memory.store m a v = m := by
  induction m generalizing lo with
  | nil => cases ha
  | cons cell rest ih =>
    obtain ⟨b, w⟩ := cell
    simp only [Memory.wfFrom, Bool.and_eq_true] at hm
    obtain ⟨-, hrest⟩ := hm
    rw [Memory.lookup] at ha
    by_cases hab : a = b
    · rw [if_pos hab] at ha
      cases ha
      rw [Memory.store, if_neg (by omega), if_pos hab, hab]
    · rw [if_neg hab] at ha
      have hle : ¬ a < b := fun hlt => by simp [Memory.lookup_of_lt hrest (Nat.lt_succ_of_lt hlt)] at ha
      rw [Memory.store, if_neg hle, if_neg hab, ih hrest ha]

/-- Settles O19: a store of the listed value gives the same list. -/
theorem storeOfPresentValueIsIdle : Obligations.StoreOfPresentValueIsIdle := by
  intro s a v ⟨_, hdmem⟩ hlisted
  rw [State.memWrite, Memory.store_of_lookup hdmem hlisted]

/-- The first address listed by one of two rising lists that agree is not before the first listed by the other. -/
theorem Memory.head_le_of_lookup_eq {a b lo : Nat} {v w : Word} {m n : Memory}
    (hn : Memory.wfFrom lo ((b, w) :: n) = true)
    (h : Memory.lookup ((a, v) :: m) a = Memory.lookup ((b, w) :: n) a) : b ≤ a := by
  simp only [Memory.wfFrom, Bool.and_eq_true, decide_eq_true_eq] at hn
  obtain ⟨⟨-, -⟩, hrest⟩ := hn
  by_contra hlt
  rw [Memory.lookup, if_pos rfl, Memory.lookup, if_neg (by omega), Memory.lookup_of_lt hrest (by omega)] at h
  cases h

/-- Rising lists that agree on every address are equal: their first addresses agree, and so do their rests. -/
theorem Memory.eq_of_lookup_eq {m n : Memory} {lo lo' : Nat} (hm : Memory.wfFrom lo m = true)
    (hn : Memory.wfFrom lo' n = true) (h : ∀ a, Memory.lookup m a = Memory.lookup n a) : m = n := by
  induction m generalizing n lo lo' with
  | nil =>
    cases n with
    | nil => rfl
    | cons cell n => simpa [Memory.lookup] using h cell.1
  | cons cell m ih =>
    obtain ⟨a, v⟩ := cell
    cases n with
    | nil => simpa [Memory.lookup] using h a
    | cons cell n =>
      obtain ⟨b, w⟩ := cell
      have hab : a = b :=
        Nat.le_antisymm (Memory.head_le_of_lookup_eq hm (h b).symm) (Memory.head_le_of_lookup_eq hn (h a))
      subst hab
      have hvw : v = w := by simpa [Memory.lookup] using h a
      simp only [Memory.wfFrom, Bool.and_eq_true] at hm hn
      have hrest : ∀ c, Memory.lookup m c = Memory.lookup n c := by
        intro c
        by_cases hc : c = a
        · rw [hc, Memory.lookup_of_lt hm.2 a.lt_succ_self, Memory.lookup_of_lt hn.2 a.lt_succ_self]
        · simpa [Memory.lookup, hc] using h c
      rw [hvw, ih hm.2 hn.2 hrest]

/-- Settles O20. -/
theorem canonicalMemoriesAreEqualAsData : Obligations.CanonicalMemoriesAreEqualAsData :=
  fun _ _ hm hn h => Memory.eq_of_lookup_eq hm hn h

end Sys2Proof.Machine
end

section
/-! PROOFS. Ports and branches, the next `pc` of every instruction, `$0`, and the statements of 44_type_i_io.md and
45_type_i_branch.md. -/

namespace Sys2Proof.Machine

/-! ### IN and OUT -/

/-- Settles O24, by the two rules of the input port. -/
theorem inTakesTheAnswer : Obligations.InTakesTheAnswer := by
  intro ra s
  refine ⟨_, exec_inp ra s, fun v vs hinput => ?listed, fun hinput => ?unlisted, rfl,
    fun r hr => s.takeInput.readReg_finishWith_of_ne ra r _ hr, pcNext_of_pc_eq rfl, fun _ => rfl, rfl, ⟨rfl, rfl⟩, rfl⟩
  case listed => simp [s.portIn_of_listed v vs hinput, hinput]
  case unlisted => simp [s.portIn_of_unlisted hinput, hinput]

/-- Settles O25. -/
theorem outAppendsTheRegister : Obligations.OutAppendsTheRegister := by
  intro ra s
  refine ⟨_, exec_out ra s, ?length, ⟨_, rfl⟩, ?last, fun _ => rfl, pcNext_of_pc_eq rfl, fun _ => rfl, ⟨rfl, rfl⟩,
    ⟨rfl, rfl⟩, rfl⟩
  case length => simp
  case last => simp

/-! ### BZ and BAL -/

/-- BZ goes to its target or on, and changes nothing but `pc` (R151). -/
theorem exec_bz_spec (ra rb : Reg) (imm : Imm8) (s : State) : ∃ t, exec (.bz ra imm rb) s = .next t ∧
    (t.pc = if (s.readReg ra).toNat = 0 then branchTarget imm rb s else s.pc + 1#16) ∧
    SameRegs s t ∧ OnlyRegsAndPc s t := by
  refine ⟨_, exec_bz ra rb imm s, ?_⟩
  split
  · exact ⟨rfl, fun _ => rfl, fun _ => rfl, ⟨rfl, rfl⟩, rfl, ⟨rfl, rfl⟩, rfl⟩
  · exact ⟨rfl, fun _ => rfl, fun _ => rfl, ⟨rfl, rfl⟩, rfl, ⟨rfl, rfl⟩, rfl⟩

/-- BAL writes the link, goes to its target and changes nothing else (R152). -/
theorem exec_bal_spec (ra rb : Reg) (imm : Imm8) (s : State) : ∃ t, exec (.bal ra imm rb) s = .next t ∧
    (t.readReg ra).toNat = (s.pc.toNat + 1) % 65536 ∧ t.pc = branchTarget imm rb s ∧
    SameRegsBut ra s t ∧ OnlyRegsAndPc s t := by
  refine ⟨_, exec_bal ra rb imm s, ?_, rfl, fun r hr => ?_, fun _ => rfl, ⟨rfl, rfl⟩, rfl, ⟨rfl, rfl⟩, rfl⟩
  · rw [State.readReg_setPc, State.readReg_writeReg_same]
    exact BitVec.toNat_add s.pc 1#16
  · rw [State.readReg_setPc, State.readReg_writeReg_of_ne s ra r _ hr]

theorem branchTarget_pcRelative_toNat (imm : Imm8) (rb : Reg) {s : State} (h : s.cfg.branchMode = .pcRelative) :
    (branchTarget imm rb s).toNat = (s.pc.toNat + immValue s.cfg imm) % 65536 := by
  rw [branchTarget_pcRelative imm rb s h, BitVec.toNat_add, imm16_toNat]

theorem branchTarget_basePlusImm_toNat (imm : Imm8) (rb : Reg) {s : State} (h : s.cfg.branchMode = .basePlusImm) :
    (branchTarget imm rb s).toNat = (baseValue rb s + immValue s.cfg imm) % 65536 := by
  rw [branchTarget_basePlusImm imm rb s h, effAddr_toNat]

/-- The next `pc` of BZ as a number, from its target as a number. -/
theorem bz_pc_toNat {s t : State} {c : Prop} [Decidable c] {target : Word} {n : Nat}
    (hpc : t.pc = if c then target else s.pc + 1#16) (htarget : target.toNat = n) :
    t.pc.toNat = if c then n else (s.pc.toNat + 1) % 65536 := by
  rw [hpc, apply_ite BitVec.toNat, htarget, BitVec.toNat_add]
  rfl

/-- Settles O26. -/
theorem bzTestsAndBranches : Obligations.BzTestsAndBranches := by
  intro ra rb imm s hmode
  obtain ⟨t, hexec, hpc, hregs, honly⟩ := exec_bz_spec ra rb imm s
  exact ⟨t, hexec, bz_pc_toNat hpc (branchTarget_pcRelative_toNat imm rb hmode), hregs, honly⟩

/-- Settles O27. -/
theorem balLinksAndBranches : Obligations.BalLinksAndBranches := by
  intro ra rb imm s hmode
  obtain ⟨t, hexec, hlink, hpc, hregs, honly⟩ := exec_bal_spec ra rb imm s
  exact ⟨t, hexec, hlink, hpc ▸ branchTarget_pcRelative_toNat imm rb hmode, hregs, honly⟩

/-- Settles O28: the target is computed in the old state, so the link does not move the base. -/
theorem branchesWithBasePlusImm : Obligations.BranchesWithBasePlusImm := by
  intro ra rb imm s hmode
  obtain ⟨t, hbz, hpc, hregs, honly⟩ := exec_bz_spec ra rb imm s
  obtain ⟨u, hbal, hlink, hpc', hregs', honly'⟩ := exec_bal_spec ra rb imm s
  exact ⟨⟨t, hbz, bz_pc_toNat hpc (branchTarget_basePlusImm_toNat imm rb hmode), hregs, honly⟩,
    ⟨u, hbal, hlink, hpc' ▸ branchTarget_basePlusImm_toNat imm rb hmode, hregs', honly'⟩⟩

/-! ### The next `pc` -/

/-- The `pc` that an instruction leaves. -/
def nextPc (i : Instr) (s : State) : Word :=
  match i with
  | .hlt => s.pc
  | .bz ra imm rb => if (s.readReg ra).toNat = 0 then branchTarget imm rb s else s.pc + 1#16
  | .bal _ imm rb => branchTarget imm rb s
  | _ => s.pc + 1#16

theorem exec_pc {i : Instr} {s t : State} (h : exec i s = .next t) : t.pc = nextPc i s := by
  cases i with
  | bz ra imm rb =>
    obtain ⟨u, hexec, hpc, -⟩ := exec_bz_spec ra rb imm s
    cases hexec.symm.trans h
    exact hpc
  | _ => cases h; rfl

/-- Under `pc_relative` the next `pc` depends on `pc`, the settings and the zero tests of the registers alone. -/
theorem nextPc_congr {s s' : State} (i : Instr) (hmode : s.cfg.branchMode = .pcRelative) (hcfg : s'.cfg = s.cfg)
    (hpc : s'.pc = s.pc) (hzero : ∀ r, (s'.readReg r).toNat = 0 ↔ (s.readReg r).toNat = 0) :
    nextPc i s' = nextPc i s := by
  have htarget : ∀ imm rb, branchTarget imm rb s' = branchTarget imm rb s := by
    intro imm rb
    rw [branchTarget_pcRelative imm rb s hmode, branchTarget_pcRelative imm rb s' (hcfg ▸ hmode), hcfg, hpc]
  cases i with
  | bz ra imm rb => simp only [nextPc, htarget, hpc, hzero ra]
  | bal ra imm rb => exact htarget imm rb
  | hlt => exact hpc
  | _ => exact congrArg (· + 1#16) hpc

/-- Settles O29. -/
theorem noIndirectJumpWhenPcRelative : Obligations.NoIndirectJumpWhenPcRelative := by
  intro i s s' t t' hmode hcfg hpc hzero hexec hexec'
  rw [exec_pc hexec, exec_pc hexec', nextPc_congr i hmode hcfg hpc hzero]

/-! ### `$0` as an operand and as a base -/

/-- Settles O21. -/
theorem zeroRegisterIsStoredButNoBase : Obligations.ZeroRegisterIsStoredButNoBase := by
  refine ⟨fun s v => ⟨s.readReg_writeReg_same .r0 v, fun r hr => s.readReg_writeReg_of_ne .r0 r v hr⟩, fun s => rfl,
    fun s => ⟨_, exec_add .r1 .r0 .r0 s, ?add⟩, fun s => ⟨_, exec_st .r0 .r0 0x05#8 s, ?st⟩, fun s imm rb => ?bz⟩
  case add =>
    rw [State.readReg_finishWith_same, Nat.two_mul]
    exact BitVec.toNat_add _ _
  case st =>
    have haddr : effAddr 0x05#8 .r0 s = 0x0005#16 := by
      apply BitVec.eq_of_toNat_eq
      rw [effAddr_r0, imm16_toNat, immValue_of_lt s.cfg (by decide)]
      rfl
    rw [haddr, State.memRead_advance, State.memRead_memWrite_same]
  case bz =>
    obtain ⟨t, hexec, hpc, -⟩ := exec_bz_spec .r0 rb imm s
    exact ⟨t, hexec, hpc⟩

/-- The address with base `$0` does not depend on the stored `$0`. -/
theorem effAddr_r0_writeReg (imm : Imm8) (s : State) (v : Word) :
    effAddr imm .r0 (s.writeReg .r0 v) = effAddr imm .r0 s := by
  rw [effAddr_r0, effAddr_r0, State.writeReg_cfg]

/-- Nor does the branch target, in either mode. -/
theorem branchTarget_r0_writeReg (imm : Imm8) (s : State) (v : Word) :
    branchTarget imm .r0 (s.writeReg .r0 v) = branchTarget imm .r0 s := by
  simp only [branchTarget, effAddr_r0_writeReg, State.writeReg_cfg, State.writeReg_pc]

/-- Settles O22: with base `$0` neither the address nor the target depends on the stored `$0`. -/
theorem baseZeroIgnoresStoredRegister : Obligations.BaseZeroIgnoresStoredRegister := by
  refine ⟨fun s => ⟨rfl, fun rb hrb => (baseVal_eq rb s).trans (if_neg hrb)⟩, fun s v imm ra =>
    ⟨⟨_, _, exec_ld ra .r0 imm s, exec_ld ra .r0 imm _, ?ld⟩, ⟨_, _, exec_lda ra .r0 imm s, exec_lda ra .r0 imm _, ?lda⟩,
      fun hra => ⟨_, _, exec_st ra .r0 imm s, exec_st ra .r0 imm _, ?st⟩, fun hra => ?bz,
      ⟨_, _, exec_bal ra .r0 imm s, exec_bal ra .r0 imm _, branchTarget_r0_writeReg imm s v⟩⟩⟩
  case ld =>
    rw [State.readReg_finishWith_same, State.readReg_finishWith_same, effAddr_r0_writeReg]
    rfl
  case lda => rw [State.readReg_finishWith_same, State.readReg_finishWith_same, effAddr_r0_writeReg]
  case st =>
    rw [effAddr_r0_writeReg, State.readReg_writeReg_of_ne s .r0 ra v hra]
    exact fun _ => rfl
  case bz =>
    obtain ⟨t, hexec, hpc, -⟩ := exec_bz_spec ra .r0 imm s
    obtain ⟨u, hexec', hpc', -⟩ := exec_bz_spec ra .r0 imm (s.writeReg .r0 v)
    rw [State.readReg_writeReg_of_ne s .r0 ra v hra, branchTarget_r0_writeReg, State.writeReg_pc, ← hpc] at hpc'
    exact ⟨t, u, hexec, hexec', hpc'⟩

end Sys2Proof.Machine
end

section
/-! PROOFS. What the assembler accepts (30_encoding.md sections 3 and 5), and when a step faults (60_exceptions.md
section 1). -/

namespace Sys2Proof.Machine

/-! ### Written immediates -/

theorem ofInt_toNat (v : Int) : ((BitVec.ofInt 8 v).toNat : Int) = v % 256 := by
  rw [BitVec.toNat_ofInt]
  omega

/-- An accepted integer has one field, its value modulo 256 (R69). -/
theorem immOfInt_eq_some_iff (v : Int) (imm : Imm8) :
    immOfInt v = some imm ↔ -128 ≤ v ∧ v ≤ 255 ∧ (imm.toNat : Int) = v % 256 := by
  have hfield : BitVec.ofInt 8 v = imm ↔ (imm.toNat : Int) = v % 256 := by
    rw [← ofInt_toNat, Int.natCast_inj, BitVec.toNat_inj, eq_comm]
  rw [immOfInt, ← hfield, ← and_assoc]
  split
  · next hrange => simp [hrange]
  · next hrange => simp [hrange]

/-- Settles O39: the field is known modulo 256, and sign extension reads it in -128..127. -/
theorem writtenImmediates : Obligations.WrittenImmediates := by
  refine ⟨immOfInt_eq_some_iff, fun cfg v imm himm hext => ?_⟩
  obtain ⟨hlow, hhigh, hfield⟩ := (immOfInt_eq_some_iff v imm).mp himm
  rw [imm16_sext cfg imm hext, imm8_toInt]
  split <;> split <;> omega

/-! ### Labels -/

theorem absoluteLabelImm_eq_some {cfg : Config} {label : Word} {imm : Imm8}
    (h : absoluteLabelImm cfg label = some imm) : imm16 cfg imm = label := by
  rw [absoluteLabelImm] at h
  split at h
  · next hlands => cases h; exact hlands
  · cases h

/-- Counting from the branch, an accepted label's sign-extended field reaches the label. -/
theorem relativeLabelImm_eq_some {cfg : Config} (hext : cfg.immExt = .sext) {a label : Word} {imm : Imm8}
    (h : relativeLabelImm a label = some imm) : a + imm16 cfg imm = label := by
  rw [relativeLabelImm] at h
  split at h
  · next hrange =>
    cases h
    have hfield := ofInt_toNat ((label.toNat : Int) - a.toNat)
    have ha := a.isLt
    have hlabel := label.isLt
    apply BitVec.eq_of_toNat_eq
    rw [BitVec.toNat_add, imm16_toNat, immValue_sext hext]
    split <;> omega
  · cases h

/-- The field of an accepted branch label reaches the label, in either mode. -/
theorem branchTarget_of_label {s : State} {label : Word} {imm : Imm8}
    (hmode : s.cfg.immExt = .sext ∨ s.cfg.branchMode = .basePlusImm)
    (h : branchLabelImm s.cfg s.pc label = some imm) : branchTarget imm .r0 s = label := by
  cases hbranch : s.cfg.branchMode with
  | pcRelative =>
    rw [branchLabelImm, hbranch] at h
    rw [branchTarget_pcRelative imm .r0 s hbranch]
    exact relativeLabelImm_eq_some (hmode.resolve_right (by simp [hbranch])) h
  | basePlusImm =>
    rw [branchLabelImm, hbranch] at h
    rw [branchTarget_basePlusImm imm .r0 s hbranch, effAddr_r0]
    exact absoluteLabelImm_eq_some h

/-- Settles O40: the field that stands for the label is the one the machine turns back into it. -/
theorem acceptedLabelsLand : Obligations.AcceptedLabelsLand := by
  refine fun s a label i => ⟨fun hmode hasm => ?bal, fun hasm => ?lda⟩
  case bal =>
    obtain ⟨imm, himm, rfl⟩ := Option.map_eq_some_iff.mp hasm
    exact ⟨_, exec_bal a .r0 imm s, branchTarget_of_label hmode himm⟩
  case lda =>
    obtain ⟨imm, himm, rfl⟩ := Option.map_eq_some_iff.mp hasm
    refine ⟨_, exec_lda a .r0 imm s, ?_⟩
    rw [State.readReg_finishWith_same, effAddr_r0, absoluteLabelImm_eq_some himm]

/-! ### Faults -/

theorem step_of_error {s : State} {f : Fault} (h : nextInstr s = .error f) : step s = .fault f := by
  simp [step, h]

/-- A word that decodes is not illegal. -/
theorem not_illegalWord_of_decode {cfg : Config} {w : Word} {i : Instr} (h : decode cfg w = .ok i) :
    ¬ IllegalWord cfg w := by
  intro hillegal
  obtain ⟨e, he⟩ := (decodeRejectsExactlyIllegalWords cfg w).mpr hillegal
  cases he.symm.trans h

/-- Settles O43: each of the four things a step can find excludes the others. -/
theorem stepFaultsExactly : Obligations.StepFaultsExactly := by
  intro s
  rcases nextInstr_cases s with ⟨hhalted, hnext⟩ | ⟨hrunning, hfetch, hnext⟩ | ⟨w, e, hrunning, hfetch, hdecode, hnext⟩ |
    ⟨i, hexecutes, -⟩
  · simp [step_of_error hnext, hhalted, eq_comm]
  · simp [step_of_error hnext, hrunning, hfetch, eq_comm]
  · have hillegal : IllegalWord s.cfg w := (decodeRejectsExactlyIllegalWords s.cfg w).mp ⟨e, hdecode⟩
    simp [step_of_error hnext, hrunning, hfetch, hillegal, eq_comm]
  · obtain ⟨t, hexec⟩ := everyInstructionCompletes i s
    obtain ⟨hrunning, w, hfetch, hdecode⟩ := hexecutes
    have hlegal := not_illegalWord_of_decode hdecode
    have hstep : step s = .next t := (State.Executes.step_eq ⟨hrunning, w, hfetch, hdecode⟩).trans hexec
    simp [hstep, hrunning, hfetch, hlegal]

end Sys2Proof.Machine
end
